-- ==== Sys2Proof/Word.lean ====
section
/-!
DEFINITION. The widths of the block (00_scope R6, R10, R13): bytes, 16-bit words, 4-bit fields, 12-bit addresses and
register numbers.  Every value is unsigned; no operation sign-extends (R10).
-/

namespace Sys2Proof

/-- An unsigned 8-bit value, the spec's `u8` (00_scope R10). -/
abbrev Byte := BitVec 8

/-- An unsigned 16-bit value, the spec's `u16` (00_scope R10): I, PC, stack entries, instruction words. -/
abbrev Word := BitVec 16

/-- A 4-bit field of an instruction word (30_encoding R91). -/
abbrev Nibble := BitVec 4

/-- The 12-bit address field `nnn` of an instruction word (30_encoding R91). -/
abbrev Addr12 := BitVec 12

/-- The number of a general register, 0x0 to 0xF (10_state R21). -/
abbrev Reg := Fin 16

end Sys2Proof
end

