-- ==== Sys2Proof/Syntax.lean ====
section
/-!
DEFINITION. The instruction set: one constructor per row of spec/opcode_table.json (30_encoding R94), 34 in all.
Operands carry exactly the bits their field has (30_encoding R91, R92), so every term is an instruction the table admits.
-/

namespace Sys2Proof

/-- The 34 instructions of 30_encoding R94, in the table's order.  `x`, `y` are register numbers, `nn` an 8-bit
immediate, `nnn` a 12-bit address, `n` a row count. -/
inductive Instr where
  /-- `00E0` CLS (44_display R211). -/
  | cls
  /-- `00EE` RET (41_control R140). -/
  | ret
  /-- `1nnn` JP nnn (41_control R141). -/
  | jp (nnn : Addr12)
  /-- `2nnn` CALL nnn (41_control R142). -/
  | call (nnn : Addr12)
  /-- `3xnn` SE Vx, nn (41_control R143). -/
  | seImm (x : Reg) (nn : Byte)
  /-- `4xnn` SNE Vx, nn (41_control R144). -/
  | sneImm (x : Reg) (nn : Byte)
  /-- `5xy0` SE Vx, Vy (41_control R145). -/
  | seReg (x y : Reg)
  /-- `6xnn` LD Vx, nn (42_alu R161). -/
  | ldImm (x : Reg) (nn : Byte)
  /-- `7xnn` ADD Vx, nn (42_alu R162). -/
  | addImm (x : Reg) (nn : Byte)
  /-- `8xy0` LD Vx, Vy (42_alu R163). -/
  | ldReg (x y : Reg)
  /-- `8xy1` OR Vx, Vy (42_alu R164). -/
  | orReg (x y : Reg)
  /-- `8xy2` AND Vx, Vy (42_alu R165). -/
  | andReg (x y : Reg)
  /-- `8xy3` XOR Vx, Vy (42_alu R166). -/
  | xorReg (x y : Reg)
  /-- `8xy4` ADD Vx, Vy (42_alu R167). -/
  | addReg (x y : Reg)
  /-- `8xy5` SUB Vx, Vy (42_alu R168). -/
  | subReg (x y : Reg)
  /-- `8xy6` SHR Vx (42_alu R169); `y` is decoded and ignored, and kept so that no bit of the word is lost. -/
  | shr (x y : Reg)
  /-- `8xy7` SUBN Vx, Vy (42_alu R170). -/
  | subnReg (x y : Reg)
  /-- `8xyE` SHL Vx (42_alu R171); `y` is decoded and ignored, and kept so that no bit of the word is lost. -/
  | shl (x y : Reg)
  /-- `9xy0` SNE Vx, Vy (41_control R146). -/
  | sneReg (x y : Reg)
  /-- `Annn` LD I, nnn (43_index_memory R190). -/
  | ldI (nnn : Addr12)
  /-- `Bnnn` JP V0, nnn (41_control R147). -/
  | jpV0 (nnn : Addr12)
  /-- `Cxnn` RND Vx, nn (42_alu R172). -/
  | rnd (x : Reg) (nn : Byte)
  /-- `Dxyn` DRW Vx, Vy, n (44_display R212). -/
  | drw (x y : Reg) (n : Nibble)
  /-- `Ex9E` SKP Vx (45_timers_keypad R231). -/
  | skp (x : Reg)
  /-- `ExA1` SKNP Vx (45_timers_keypad R232). -/
  | sknp (x : Reg)
  /-- `Fx07` LD Vx, DT (45_timers_keypad R233). -/
  | ldVxDt (x : Reg)
  /-- `Fx15` LD DT, Vx (45_timers_keypad R234). -/
  | ldDtVx (x : Reg)
  /-- `Fx18` LD ST, Vx (45_timers_keypad R235). -/
  | ldStVx (x : Reg)
  /-- `Fx1E` ADD I, Vx (43_index_memory R191). -/
  | addI (x : Reg)
  /-- `Fx0A` LD Vx, K (45_timers_keypad R236). -/
  | ldVxK (x : Reg)
  /-- `Fx29` LD F, Vx (43_index_memory R192). -/
  | ldF (x : Reg)
  /-- `Fx33` LD B, Vx (43_index_memory R193). -/
  | ldB (x : Reg)
  /-- `Fx55` LD [I], Vx (43_index_memory R194): stores V0 to Vx. -/
  | stRegs (x : Reg)
  /-- `Fx65` LD Vx, [I] (43_index_memory R195): loads V0 to Vx. -/
  | ldRegs (x : Reg)
  deriving DecidableEq, Repr

end Sys2Proof
end

