-- ==== Sys2Proof/WellFormed.lean ====
section
/-!
DEFINITION. Well-formedness.  An `Instr` is well formed by its types (each operand has exactly the bits of its field), so
the check stands on the 16-bit words: the words that are instructions, read off the table of UNKNOWN words of
30_encoding R95, digit by digit and without the decoder's masks.  `Sys2Proof.decode` is written from the other table
(R93, R94); that the two agree is a statement of the package.
-/

namespace Sys2Proof

/-- Hexadecimal digit `k` of a word, digit 0 the lowest. -/
def Word.digit (w : Word) (k : Nat) : Nat := w.toNat / 16 ^ k % 16

/-- Major opcode 0: only `00E0` and `00EE` are instructions (30_encoding R95). -/
def Word.zeroRowOk (w : Word) : Bool := w.toNat == 0x00E0 || w.toNat == 0x00EE

/-- Major opcodes 5 and 9: the last digit must be 0 (30_encoding R95). -/
def Word.registerSkipOk (w : Word) : Bool := Word.digit w 0 == 0

/-- Major opcode 8: the last digit is none of 8, 9, A, B, C, D, F (30_encoding R95). -/
def Word.arithmeticOk (w : Word) : Bool := !([0x8, 0x9, 0xA, 0xB, 0xC, 0xD, 0xF].contains (Word.digit w 0))

/-- Major opcode E: the low byte is 9E or A1 (30_encoding R95). -/
def Word.keySkipOk (w : Word) : Bool := [0x9E, 0xA1].contains (w.toNat % 256)

/-- Major opcode F: the low byte is one of the nine of 30_encoding R95. -/
def Word.miscOk (w : Word) : Bool :=
  [0x07, 0x0A, 0x15, 0x18, 0x1E, 0x29, 0x33, 0x55, 0x65].contains (w.toNat % 256)

/-- The word is an instruction: it is none of the unknown words of 30_encoding R95. -/
def Word.wellFormed (w : Word) : Bool :=
  match Word.digit w 3 with
  | 0x0 => Word.zeroRowOk w
  | 0x5 => Word.registerSkipOk w
  | 0x8 => Word.arithmeticOk w
  | 0x9 => Word.registerSkipOk w
  | 0xE => Word.keySkipOk w
  | 0xF => Word.miscOk w
  | _ => true

end Sys2Proof
end

