-- ==== Sys2Proof/Decode.lean ====
section
/-!
DEFINITION. The decoder (30_encoding R90 to R95, R99): total on every 16-bit word, which it answers with an instruction
or with `unknownOpcode` and the word.  After it the encoder, written from the same patterns, and the opcode table in mask
form (R93, R94).
-/

namespace Sys2Proof

/-- What decoding a word answers (30_encoding R99): one instruction with its fields, or `UnknownOpcode(word)`.  An unknown
word never stops the machine (R96). -/
inductive Decoded where
  /-- The word matches the row of this instruction. -/
  | instr (i : Instr)
  /-- The word matches no row of 30_encoding R94. -/
  | unknownOpcode (w : Word)
  deriving DecidableEq, Repr

/-- Field `i`, bits 15 to 12: the major opcode (30_encoding R91). -/
def fieldI (w : Word) : Nibble := w.extractLsb' 12 4

/-- Field `x`, bits 11 to 8: a register number (30_encoding R91). -/
def fieldX (w : Word) : Reg := (w.extractLsb' 8 4).toFin

/-- Field `y`, bits 7 to 4: a register number (30_encoding R91). -/
def fieldY (w : Word) : Reg := (w.extractLsb' 4 4).toFin

/-- Field `n`, bits 3 to 0: a minor opcode or a row count (30_encoding R91). -/
def fieldN (w : Word) : Nibble := w.extractLsb' 0 4

/-- Field `nn`, bits 7 to 0: an immediate or a minor opcode (30_encoding R91). -/
def fieldNn (w : Word) : Byte := w.extractLsb' 0 8

/-- Field `nnn`, bits 11 to 0: an address (30_encoding R91). -/
def fieldNnn (w : Word) : Addr12 := w.extractLsb' 0 12

/-- Major opcode 8: the operation is selected by `n` (30_encoding R94). -/
def decodeArithmetic (w : Word) : Decoded :=
  match fieldN w with
  | 0x0#4 => .instr (.ldReg (fieldX w) (fieldY w))
  | 0x1#4 => .instr (.orReg (fieldX w) (fieldY w))
  | 0x2#4 => .instr (.andReg (fieldX w) (fieldY w))
  | 0x3#4 => .instr (.xorReg (fieldX w) (fieldY w))
  | 0x4#4 => .instr (.addReg (fieldX w) (fieldY w))
  | 0x5#4 => .instr (.subReg (fieldX w) (fieldY w))
  | 0x6#4 => .instr (.shr (fieldX w) (fieldY w))
  | 0x7#4 => .instr (.subnReg (fieldX w) (fieldY w))
  | 0xE#4 => .instr (.shl (fieldX w) (fieldY w))
  | _ => .unknownOpcode w

/-- Major opcode F: the operation is selected by `nn` (30_encoding R94). -/
def decodeMisc (w : Word) : Decoded :=
  match fieldNn w with
  | 0x07#8 => .instr (.ldVxDt (fieldX w))
  | 0x0A#8 => .instr (.ldVxK (fieldX w))
  | 0x15#8 => .instr (.ldDtVx (fieldX w))
  | 0x18#8 => .instr (.ldStVx (fieldX w))
  | 0x1E#8 => .instr (.addI (fieldX w))
  | 0x29#8 => .instr (.ldF (fieldX w))
  | 0x33#8 => .instr (.ldB (fieldX w))
  | 0x55#8 => .instr (.stRegs (fieldX w))
  | 0x65#8 => .instr (.ldRegs (fieldX w))
  | _ => .unknownOpcode w

/-- Decode a 16-bit instruction word: dispatch on `(i, x, y, n)` with the patterns of 30_encoding R94; every literal digit
must match (R93, D11).  Decode reads no state (40_cycle R124). -/
def decode (w : Word) : Decoded :=
  match fieldI w with
  | 0x0#4 =>
    if w = 0x00E0#16 then .instr .cls
    else if w = 0x00EE#16 then .instr .ret
    else .unknownOpcode w
  | 0x1#4 => .instr (.jp (fieldNnn w))
  | 0x2#4 => .instr (.call (fieldNnn w))
  | 0x3#4 => .instr (.seImm (fieldX w) (fieldNn w))
  | 0x4#4 => .instr (.sneImm (fieldX w) (fieldNn w))
  | 0x5#4 => if fieldN w = 0x0#4 then .instr (.seReg (fieldX w) (fieldY w)) else .unknownOpcode w
  | 0x6#4 => .instr (.ldImm (fieldX w) (fieldNn w))
  | 0x7#4 => .instr (.addImm (fieldX w) (fieldNn w))
  | 0x8#4 => decodeArithmetic w
  | 0x9#4 => if fieldN w = 0x0#4 then .instr (.sneReg (fieldX w) (fieldY w)) else .unknownOpcode w
  | 0xA#4 => .instr (.ldI (fieldNnn w))
  | 0xB#4 => .instr (.jpV0 (fieldNnn w))
  | 0xC#4 => .instr (.rnd (fieldX w) (fieldNn w))
  | 0xD#4 => .instr (.drw (fieldX w) (fieldY w) (fieldN w))
  | 0xE#4 =>
    if fieldNn w = 0x9E#8 then .instr (.skp (fieldX w))
    else if fieldNn w = 0xA1#8 then .instr (.sknp (fieldX w))
    else .unknownOpcode w
  | 0xF#4 => decodeMisc w
  | _ => .unknownOpcode w

/-- The word of two bytes in memory order: the first is the high byte (20_memory R62, big-endian). -/
def wordOfBytes (hi lo : Byte) : Word := hi ++ lo

/-- The high byte of a word, the one at the lower address (20_memory R62). -/
def highByte (w : Word) : Byte := w.extractLsb' 8 8

/-- The low byte of a word, the one at the higher address (20_memory R62). -/
def lowByte (w : Word) : Byte := w.extractLsb' 0 8

/-- Decode an instruction from its two bytes, in memory order: every instruction is exactly two bytes (30_encoding R90). -/
def decodeBytes (hi lo : Byte) : Decoded := decode (wordOfBytes hi lo)

/-- The instruction a decoding answers, if it is one. -/
def Decoded.toOption (d : Decoded) : Option Instr :=
  match d with
  | .instr i => some i
  | .unknownOpcode _ => none

/-- The word that `spec/opcode_table.json` numbers: bit 0 the least significant bit of the first word, bits at and above
`nbits` zero.  An instruction is one word (30_encoding R90), so bits above 15 belong to no instruction. -/
def tableWord (nbits w : Nat) : Word := BitVec.ofNat 16 (w % 2 ^ nbits)

/-- The instruction the decoder reads from a word numbered as the opcode table numbers it, laid out as the hardware
stores it (high byte first) and decoded from its two bytes. -/
def decodeTableWord (nbits w : Nat) : Option Instr :=
  (decodeBytes (highByte (tableWord nbits w)) (lowByte (tableWord nbits w))).toOption

/-- The four bits of a register number. -/
def regBits (x : Reg) : Nibble := BitVec.ofFin x

/-- The word of a pattern with an address, `innn`. -/
def encodeAddr (i : Nibble) (nnn : Addr12) : Word := i ++ nnn

/-- The word of a pattern with a register and a low byte, `ixNN`. -/
def encodeRegByte (i : Nibble) (x : Reg) (nn : Byte) : Word := i ++ regBits x ++ nn

/-- The word of a pattern with two registers and a last digit, `ixyN`. -/
def encodeRegReg (i : Nibble) (x y : Reg) (n : Nibble) : Word := i ++ regBits x ++ regBits y ++ n

/-- The word of an instruction, from the patterns of 30_encoding R94. -/
def encode (i : Instr) : Word :=
  match i with
  | .cls => 0x00E0#16
  | .ret => 0x00EE#16
  | .jp nnn => encodeAddr 0x1 nnn
  | .call nnn => encodeAddr 0x2 nnn
  | .seImm x nn => encodeRegByte 0x3 x nn
  | .sneImm x nn => encodeRegByte 0x4 x nn
  | .seReg x y => encodeRegReg 0x5 x y 0x0
  | .ldImm x nn => encodeRegByte 0x6 x nn
  | .addImm x nn => encodeRegByte 0x7 x nn
  | .ldReg x y => encodeRegReg 0x8 x y 0x0
  | .orReg x y => encodeRegReg 0x8 x y 0x1
  | .andReg x y => encodeRegReg 0x8 x y 0x2
  | .xorReg x y => encodeRegReg 0x8 x y 0x3
  | .addReg x y => encodeRegReg 0x8 x y 0x4
  | .subReg x y => encodeRegReg 0x8 x y 0x5
  | .shr x y => encodeRegReg 0x8 x y 0x6
  | .subnReg x y => encodeRegReg 0x8 x y 0x7
  | .shl x y => encodeRegReg 0x8 x y 0xE
  | .sneReg x y => encodeRegReg 0x9 x y 0x0
  | .ldI nnn => encodeAddr 0xA nnn
  | .jpV0 nnn => encodeAddr 0xB nnn
  | .rnd x nn => encodeRegByte 0xC x nn
  | .drw x y n => encodeRegReg 0xD x y n
  | .skp x => encodeRegByte 0xE x 0x9E
  | .sknp x => encodeRegByte 0xE x 0xA1
  | .ldVxDt x => encodeRegByte 0xF x 0x07
  | .ldDtVx x => encodeRegByte 0xF x 0x15
  | .ldStVx x => encodeRegByte 0xF x 0x18
  | .addI x => encodeRegByte 0xF x 0x1E
  | .ldVxK x => encodeRegByte 0xF x 0x0A
  | .ldF x => encodeRegByte 0xF x 0x29
  | .ldB x => encodeRegByte 0xF x 0x33
  | .stRegs x => encodeRegByte 0xF x 0x55
  | .ldRegs x => encodeRegByte 0xF x 0x65

/-- One row of the opcode map in mask form (30_encoding R93). -/
structure OpcodeRow where
  /-- The bits that are literal in the row's pattern. -/
  mask : Word
  /-- Their values. -/
  value : Word
  deriving DecidableEq, Repr

/-- "The word `w` matches a row iff `(w AND mask) = match`" (30_encoding R93). -/
def OpcodeRow.hits (r : OpcodeRow) (w : Word) : Bool := w &&& r.mask == r.value

/-- The row of an instruction in the opcode map (30_encoding R94). -/
def opcodeRow (i : Instr) : OpcodeRow :=
  match i with
  | .cls => ⟨0xFFFF, 0x00E0⟩
  | .ret => ⟨0xFFFF, 0x00EE⟩
  | .jp _ => ⟨0xF000, 0x1000⟩
  | .call _ => ⟨0xF000, 0x2000⟩
  | .seImm _ _ => ⟨0xF000, 0x3000⟩
  | .sneImm _ _ => ⟨0xF000, 0x4000⟩
  | .seReg _ _ => ⟨0xF00F, 0x5000⟩
  | .ldImm _ _ => ⟨0xF000, 0x6000⟩
  | .addImm _ _ => ⟨0xF000, 0x7000⟩
  | .ldReg _ _ => ⟨0xF00F, 0x8000⟩
  | .orReg _ _ => ⟨0xF00F, 0x8001⟩
  | .andReg _ _ => ⟨0xF00F, 0x8002⟩
  | .xorReg _ _ => ⟨0xF00F, 0x8003⟩
  | .addReg _ _ => ⟨0xF00F, 0x8004⟩
  | .subReg _ _ => ⟨0xF00F, 0x8005⟩
  | .shr _ _ => ⟨0xF00F, 0x8006⟩
  | .subnReg _ _ => ⟨0xF00F, 0x8007⟩
  | .shl _ _ => ⟨0xF00F, 0x800E⟩
  | .sneReg _ _ => ⟨0xF00F, 0x9000⟩
  | .ldI _ => ⟨0xF000, 0xA000⟩
  | .jpV0 _ => ⟨0xF000, 0xB000⟩
  | .rnd _ _ => ⟨0xF000, 0xC000⟩
  | .drw _ _ _ => ⟨0xF000, 0xD000⟩
  | .skp _ => ⟨0xF0FF, 0xE09E⟩
  | .sknp _ => ⟨0xF0FF, 0xE0A1⟩
  | .ldVxDt _ => ⟨0xF0FF, 0xF007⟩
  | .ldDtVx _ => ⟨0xF0FF, 0xF015⟩
  | .ldStVx _ => ⟨0xF0FF, 0xF018⟩
  | .addI _ => ⟨0xF0FF, 0xF01E⟩
  | .ldVxK _ => ⟨0xF0FF, 0xF00A⟩
  | .ldF _ => ⟨0xF0FF, 0xF029⟩
  | .ldB _ => ⟨0xF0FF, 0xF033⟩
  | .stRegs _ => ⟨0xF0FF, 0xF055⟩
  | .ldRegs _ => ⟨0xF0FF, 0xF065⟩

/-- The opcode map, all 34 rows in the order of 30_encoding R94. -/
def opcodeRows : List OpcodeRow :=
  [⟨0xFFFF, 0x00E0⟩, ⟨0xFFFF, 0x00EE⟩, ⟨0xF000, 0x1000⟩, ⟨0xF000, 0x2000⟩, ⟨0xF000, 0x3000⟩, ⟨0xF000, 0x4000⟩,
   ⟨0xF00F, 0x5000⟩, ⟨0xF000, 0x6000⟩, ⟨0xF000, 0x7000⟩] ++
  [⟨0xF00F, 0x8000⟩, ⟨0xF00F, 0x8001⟩, ⟨0xF00F, 0x8002⟩, ⟨0xF00F, 0x8003⟩, ⟨0xF00F, 0x8004⟩, ⟨0xF00F, 0x8005⟩,
   ⟨0xF00F, 0x8006⟩, ⟨0xF00F, 0x8007⟩, ⟨0xF00F, 0x800E⟩] ++
  [⟨0xF00F, 0x9000⟩, ⟨0xF000, 0xA000⟩, ⟨0xF000, 0xB000⟩, ⟨0xF000, 0xC000⟩, ⟨0xF000, 0xD000⟩, ⟨0xF0FF, 0xE09E⟩,
   ⟨0xF0FF, 0xE0A1⟩] ++
  [⟨0xF0FF, 0xF007⟩, ⟨0xF0FF, 0xF015⟩, ⟨0xF0FF, 0xF018⟩, ⟨0xF0FF, 0xF01E⟩, ⟨0xF0FF, 0xF00A⟩, ⟨0xF0FF, 0xF029⟩,
   ⟨0xF0FF, 0xF033⟩, ⟨0xF0FF, 0xF055⟩, ⟨0xF0FF, 0xF065⟩]

end Sys2Proof
end

