-- ==== Sys2Proof/Config.lean ====
section
/-!
DEFINITION. What an implementation fixes (CLOCK_HZ) and the free values of the spec (the random byte, the key state for
an index above 15).  The constants have no body: nothing can evaluate them, so a theorem holds for every value of them.
They are the constants of one machine; states taken as several machines (60_exceptions R264) share them, a DESIGN CHOICE
(log 24), unsafe for a claim that compares two machines.
-/

namespace Sys2Proof

/-- The "cycles per second" the machine was configured with, before the clamp; the spec's OPEN parameter
(00_scope R6, 92_eei_decisions D6).  No default exists (91_not_in_source N2).  DESIGN CHOICE (log 4), safe. -/
opaque Config.requestedClockHz : Nat

/-- CLOCK_HZ, the effective value: "minimum clamped to 60" (00_scope R6, D6); fixed for the machine's life.
One constant for every state of the model: DESIGN CHOICE (log 24), unsafe for a claim that compares two machines. -/
def Config.clockHz : Nat := max Config.requestedClockHz 60

/-- The random byte of the n-th free draw of a run (42_alu R172, D21): a free value under no law.
DESIGN CHOICE in form (log 1), safe.  Two states with equal counters draw the same byte: DESIGN CHOICE (log 24), unsafe
for a claim that compares two machines. -/
opaque Config.randomByte : Nat → Byte

/-- The key state read for a key index above 15 at the n-th free draw of a run (45_timers_keypad R230, D17): a free value
under no law.  DESIGN CHOICE in form (log 2), safe.  Two states with equal counters draw the same boolean: DESIGN CHOICE
(log 24), unsafe for a claim that compares two machines. -/
opaque Config.keyDraw : Nat → Bool

end Sys2Proof
end

