-- ==== Sys2Proof/Machine/State.lean ====
section
/-!
DEFINITION. The state of one machine (10_state R20), as plain data: every element of the spec's state tuple and the
model's own draw counter; its reset value (R38); the canonical form of memory; the fatal faults and the refusals.
-/

namespace Sys2Proof.Machine

/-- The fatal faults (60_exceptions R255), the kinds that FAULT records (10_state R36).  No step ANSWERS with one as its
outcome: taking a fault is a next state whose FAULT holds the kind (60_exceptions R257), and a faulted machine's cycle is a
next state equal to the state (R258); what the cycle returns to the host is `cycleResult` (log 5). -/
inductive Fault where
  /-- Raised by `2nnn` (CALL) when SP = 16 (10_state R28).  Safe: it is the spec's own condition. -/
  | stackOverflow
  /-- Raised by `00EE` (RET) when SP = 0 (10_state R29).  Safe: it is the spec's own condition. -/
  | stackUnderflow
  deriving DecidableEq, Repr

/-- The reasons a step could be refused.  No arm of `exec` and no step answers with one: every instruction has its
meaning, and an unknown word is reported and skipped (60_exceptions R256). -/
inductive Refusal where
  /-- An instruction without a meaning, by its mnemonic.  Raised by nobody now; safe, since it stops. -/
  | notModelled (mnemonic : String)
  deriving DecidableEq, Repr

/-- Memory: the cells that do not hold zero, in rising order of address (20_memory R60; log 7).  Memory is "created
zero-filled", so an address that is not listed reads as 0 (10_state R37). -/
abbrev Memory := List Host.Cell

/-- The canonical form from an address on: addresses strictly rising, below 4096 (20_memory R60), no listed cell zero. -/
def Memory.wfFrom (lo : Nat) : Memory → Bool
  | [] => true
  | (a, b) :: m => decide (lo ≤ a) && decide (a < 4096) && decide (b ≠ 0) && Memory.wfFrom (a + 1) m

/-- The canonical form of memory: equal memories are equal lists (log 7). -/
def Memory.wf (m : Memory) : Bool := Memory.wfFrom 0 m

/-- The framebuffer: `fb[x][y]`, column `x` in 0 to 63, row `y` in 0 to 31; true is a lit pixel (10_state R30). -/
abbrev Framebuffer := Vector (Vector Bool 32) 64

/-- The state of one machine (10_state R20): the spec's tuple, and the model's draw counter. -/
structure State where
  /-- V0 to VF (10_state R21); VF, number 15, is the flag output (R22). -/
  v : Vector Byte 16
  /-- The index register I (10_state R24). -/
  i : Word
  /-- The program counter: the address of the instruction being executed (10_state R23). -/
  pc : Word
  /-- The delay timer DT (10_state R25). -/
  dt : Byte
  /-- The sound timer ST (10_state R26). -/
  st : Byte
  /-- The return-address storage (10_state R27). -/
  stack : Vector Word 16
  /-- SP, the number of entries held, 0 to 16 (10_state R27). -/
  sp : Fin 17
  /-- The framebuffer FB (10_state R30). -/
  fb : Framebuffer
  /-- Memory MEM (10_state R37, 20_memory R60). -/
  mem : Memory
  /-- The key-down states KEY, written by the host (10_state R33). -/
  key : Vector Bool 16
  /-- WAITING: the keypad wait is active (10_state R34). -/
  waiting : Bool
  /-- WAIT_DEST: the register that receives the key (10_state R34). -/
  waitDest : Reg
  /-- CYC, the cycle counter of the timer divider (10_state R35). -/
  cyc : Nat
  /-- FAULT, the record of a fatal fault (10_state R36). -/
  fault : Option Fault
  /-- The MODEL's own field: how many free draws have been made (00_scope R9 makes a draw an input of the step).
  DESIGN CHOICE (log 1, log 3), safe for one machine (for two, log 24). -/
  draws : Nat
  deriving DecidableEq, Repr

/-- The state after reset, every element as 10_state R38 and 70_reset_and_hazards R281 give it.  `draws` is the model's
(DESIGN CHOICE, log 3). -/
def State.reset : State where
  v := Vector.replicate 16 0
  i := 0
  pc := 0x200
  dt := 0
  st := 0
  stack := Vector.replicate 16 0
  sp := 0
  fb := Vector.replicate 64 (Vector.replicate 32 false)
  mem := []
  key := Vector.replicate 16 false
  waiting := false
  waitDest := 0
  cyc := 0
  fault := none
  draws := 0

end Sys2Proof.Machine
end

