-- ==== Sys2Proof/Machine/Ops.lean ====
section
/-!
DEFINITION. The named operations over the state that every meaning is built from: registers, memory, the stack, the
framebuffer, the keypad, the free draws, taking a fatal fault, and the PC actions.
-/

namespace Sys2Proof.Machine

/-- What an instruction's meaning answers. -/
abbrev Answer := Host.Outcome State Fault Refusal

/-! ### Registers -/

/-- Read general register `r` (10_state R21). -/
def reg (s : State) (r : Reg) : Byte := s.v[r.val]

/-- Write general register `r` (10_state R21). -/
def setReg (s : State) (r : Reg) (b : Byte) : State := { s with v := s.v.set r.val b }

/-- The number of VF, the flag output (10_state R22). -/
def vf : Reg := 0xF

/-- Write the index register; it is never masked to 12 bits (10_state R24). -/
def setIndex (s : State) (a : Word) : State := { s with i := a }

/-- Write the delay timer (10_state R25). -/
def setDelay (s : State) (b : Byte) : State := { s with dt := b }

/-- Write the sound timer (10_state R26). -/
def setSound (s : State) (b : Byte) : State := { s with st := b }

/-! ### Memory -/

/-- The byte a memory holds at an address; an unlisted address holds 0 (10_state R37, log 7). -/
def cellsRead (m : Memory) (a : Nat) : Byte :=
  match m with
  | [] => 0
  | (k, b) :: m => if k = a then b else cellsRead m a

/-- A cell in front of a memory, left out when it holds what an unlisted address reads as (log 7). -/
def cellsCons (a : Nat) (b : Byte) (m : Memory) : Memory := if b = 0 then m else (a, b) :: m

/-- A memory with the byte at one address replaced, in canonical form (log 7). -/
def cellsWrite (m : Memory) (a : Nat) (b : Byte) : Memory :=
  match m with
  | [] => cellsCons a b []
  | (k, c) :: m =>
    if a < k then cellsCons a b ((k, c) :: m)
    else if a = k then cellsCons a b m
    else (k, c) :: cellsWrite m a b

/-- `MemRead(addr, 1)`: every address is reduced modulo 4096 (20_memory R61). -/
def memRead (s : State) (addr : Nat) : Byte := cellsRead s.mem (addr % 4096)

/-- `MemWrite(addr, 1, v)`: every address is reduced modulo 4096 (20_memory R61). -/
def memWrite (s : State) (addr : Nat) (b : Byte) : State := { s with mem := cellsWrite s.mem (addr % 4096) b }

/-- The instruction word at PC, high byte first; PC is not changed, and both addresses wrap (20_memory R62, R63;
40_cycle R123). -/
def fetch (s : State) : Word := wordOfBytes (memRead s s.pc.toNat) (memRead s (s.pc.toNat + 1))

/-! ### The return-address stack -/

/-- `Push(a)`: writes at the current pointer, then increments; StackOverflow at depth 16, with nothing written
(10_state R28). -/
def push (s : State) (a : Word) : Except Fault State :=
  if h : s.sp.val < 16 then .ok { s with stack := s.stack.set s.sp.val a, sp := ⟨s.sp.val + 1, by omega⟩ }
  else .error .stackOverflow

/-- `Pop()`: decrements, then reads; StackUnderflow at depth 0, with nothing written.  The vacated entry keeps its value
(10_state R29, D22). -/
def pop (s : State) : Except Fault (Word × State) :=
  if h : 0 < s.sp.val then .ok (s.stack[s.sp.val - 1]'(by omega), { s with sp := ⟨s.sp.val - 1, by omega⟩ })
  else .error .stackUnderflow

/-! ### The framebuffer -/

/-- The display's `get(x, y)`: coordinates wrap modulo 64 and 32 (10_state R31). -/
def fbGet (fb : Framebuffer) (x y : Nat) : Bool :=
  (fb[x % 64]'(Nat.mod_lt x (by decide)))[y % 32]'(Nat.mod_lt y (by decide))

/-- The display's `set(x, y, value)`: coordinates wrap modulo 64 and 32 (10_state R31). -/
def fbSet (fb : Framebuffer) (x y : Nat) (lit : Bool) : Framebuffer :=
  fb.set (x % 64) ((fb[x % 64]'(Nat.mod_lt x (by decide))).set (y % 32) lit (Nat.mod_lt y (by decide)))
    (Nat.mod_lt x (by decide))

/-- The display with every pixel false, what `clear()` leaves (10_state R32). -/
def fbClear : Framebuffer := Vector.replicate 64 (Vector.replicate 32 false)

/-- The pixel of the state at column `x`, row `y`, coordinates wrapped (10_state R30, R31). -/
def pixel (s : State) (x y : Nat) : Bool := fbGet s.fb x y

/-- Replace the framebuffer. -/
def setFb (s : State) (fb : Framebuffer) : State := { s with fb := fb }

/-! ### The keypad wait -/

/-- `begin_wait(dest)`: enter the waiting mode and record the register that receives the key (45_timers_keypad R236). -/
def beginWait (s : State) (dest : Reg) : State := { s with waiting := true, waitDest := dest }

/-- Leave the waiting mode (40_cycle R122). -/
def endWait (s : State) : State := { s with waiting := false }

/-! ### Free draws -/

/-- One draw more has been made (log 1). -/
def countDraw (s : State) : State := { s with draws := s.draws + 1 }

/-- `draw u8`: a free byte, fresh at each draw of one run (00_scope R12, 42_alu R172; log 1); the draw of another
machine with an equal counter is the same (log 24). -/
def drawByte (s : State) : Byte × State := (Config.randomByte s.draws, countDraw s)

/-- `draw bool`: a free boolean, fresh at each draw of one run (00_scope R12, 45_timers_keypad R230; log 2); the draw
of another machine with an equal counter is the same (log 24). -/
def drawBool (s : State) : Bool × State := (Config.keyDraw s.draws, countDraw s)

/-! ### Taking a fatal fault -/

/-- Fatal fault entry: FAULT records the kind and nothing else is written; PC keeps the address of the faulting
instruction (60_exceptions R257, 40_cycle R128).  There is no return from a fault inside the machine (R262): only the
host's `reset()` clears FAULT (`hostReset`). -/
def takeFault (s : State) (kind : Fault) : Answer := .next { s with fault := some kind }

/-! ### PC actions -/

/-- What a handler asks of PC (40_cycle R126). -/
inductive PcAction where
  /-- Go to the next word. -/
  | next
  /-- Go to an address. -/
  | jump (a : Word)
  /-- Pass over the next word if the condition holds. -/
  | skip (c : Bool)
  deriving DecidableEq, Repr

/-- PC after an action, from the address of the instruction, modulo 65536 (40_cycle R126, D4). -/
def pcAfter (a : PcAction) (pc : Word) : Word :=
  match a with
  | .next => pc + 2
  | .jump a => a
  | .skip c => pc + (if c then 4 else 2)

/-- `ApplyPCAction` (40_cycle R126): PC still holds the address of the instruction (10_state R23). -/
def applyPcAction (s : State) (a : PcAction) : State := { s with pc := pcAfter a s.pc }

/-- A handler that completes: its writes stand and its PC action is applied (40_cycle R121, R128). -/
def finish (s : State) (a : PcAction) : Answer := .next (applyPcAction s a)

end Sys2Proof.Machine
end

