-- ==== Sys2Proof/Machine/Operands.lean ====
section
/-!
DEFINITION. How operands are formed (30_encoding R92, 43_index_memory R189): the 12-bit address zero-extended, the
effective address `I + k`, the runs of bytes that `Dxyn`, `Fx55` and `Fx65` move, and the key an index names.
-/

namespace Sys2Proof.Machine

/-- `zext_16(nnn)` (30_encoding R92). -/
def addrOperand (nnn : Addr12) : Word := nnn.setWidth 16

/-- `zext_16(Vx)` (43_index_memory R191, R192; 41_control R147). -/
def byteOperand (b : Byte) : Word := b.setWidth 16

/-- The effective address of the k-th byte an instruction moves, `I + k`, reduced only by the access itself
(43_index_memory R189, 20_memory R61). -/
def effectiveAddress (s : State) (k : Nat) : Nat := s.i.toNat + k

/-- The `n` bytes at `I + k`, `I + k + 1`, ... in rising order (20_memory R64): the rows of a sprite. -/
def bytesAtIndex (s : State) (k : Nat) (n : Nat) : List Byte :=
  match n with
  | 0 => []
  | n + 1 => memRead s (effectiveAddress s k) :: bytesAtIndex s (k + 1) n

/-- `MemWrite(I + k, 1, V[k])` for k = 0, 1, ..., n - 1, in rising order (43_index_memory R194). -/
def storeRegs (s : State) (n : Nat) : State :=
  match n with
  | 0 => s
  | n + 1 => memWrite (storeRegs s n) (effectiveAddress s n) (reg s (Fin.ofNat 16 n))

/-- `V[k] <- MemRead(I + k, 1)` for k = 0, 1, ..., n - 1, in rising order (43_index_memory R195). -/
def loadRegs (s : State) (n : Nat) : State :=
  match n with
  | 0 => s
  | n + 1 => setReg (loadRegs s n) (Fin.ofNat 16 n) (memRead s (effectiveAddress s n))

/-- `is_down(v)` for a byte read from a register: KEY[v] for v in 0 to 15; a fresh free boolean, with no fault, for a
greater v (45_timers_keypad R230, D17; log 2). -/
def isDown (s : State) (v : Byte) : Bool × State :=
  if h : v.toNat < 16 then (s.key[v.toNat], s) else drawBool s

end Sys2Proof.Machine
end

