-- ==== Sys2Proof/Machine/Flags.lean ====
section
/-!
DEFINITION. The flags: every value an instruction leaves in VF, computed from the operands read before the instruction
(42_alu R160, 43_index_memory R191, 44_display R212), and the write of VF, which is always the last (40_cycle R127).
-/

namespace Sys2Proof.Machine

/-- A flag is two-valued: 1 or 0 (42_alu R160). -/
def flagByte (c : Bool) : Byte := if c then 1 else 0

/-- `carry(a, b)`: 1 if a + b > 255 (42_alu R160; 8xy4). -/
def carryFlag (a b : Byte) : Byte := flagByte (decide (a.toNat + b.toNat > 255))

/-- `not_borrow(a, b)`: 1 if a >= b (42_alu R160; 8xy5 with a - b, 8xy7 with b - a). -/
def notBorrowFlag (a b : Byte) : Byte := flagByte (decide (a.toNat ≥ b.toNat))

/-- `shifted_out` of 8xy6: bit 0 (42_alu R160). -/
def lowBitFlag (a : Byte) : Byte := flagByte (a.getLsbD 0)

/-- `shifted_out` of 8xyE: bit 7 (42_alu R160). -/
def highBitFlag (a : Byte) : Byte := flagByte (a.getLsbD 7)

/-- The flag of Fx1E: 1 if the 17-bit sum exceeds 0xFFFF (43_index_memory R191, D12). -/
def indexCarryFlag (a : Word) (b : Byte) : Byte := flagByte (decide (a.toNat + b.toNat > 0xFFFF))

/-- Write a flag into VF; in every flag-defining instruction this is the last register write (10_state R22,
40_cycle R127). -/
def writeFlag (s : State) (f : Byte) : State := setReg s vf f

end Sys2Proof.Machine
end

