-- ==== Sys2Proof/Machine/Cycle.lean ====
section
/-!
DEFINITION. The parts of a cycle that are no instruction (40_cycle R121): the timer tick, the wait poll, the cycle of a
faulted machine, and the handler of an unknown word.
-/

namespace Sys2Proof.Machine

/-- A timer counts down to 0 and stays there (60_exceptions R250). -/
def countDown (b : Byte) : Byte := if b = 0 then 0 else b - 1

/-- `Decrement()`: both timers, each saturating at 0 (60_exceptions R250). -/
def decrementTimers (s : State) : State := { s with dt := countDown s.dt, st := countDown s.st }

/-- `N = CLOCK_HZ div 60` (00_scope R6, 60_exceptions R251). -/
def timerDivider (hz : Nat) : Nat := hz / 60

/-- CYC after the tick (60_exceptions R251). -/
def nextCyc (hz : Nat) (s : State) : Nat := (s.cyc + 1) % hz

/-- The tick of this cycle decrements the timers: `CYC mod N = 0`, tested after CYC has advanced (60_exceptions R251,
D5). -/
def tickFires (hz : Nat) (s : State) : Bool := decide (nextCyc hz s % timerDivider hz = 0)

/-- `TimerTick()` at a given CLOCK_HZ (60_exceptions R251).  The condition stands inside the fields, so that the rest of
the state computes whatever CLOCK_HZ is. -/
def timerTickWith (hz : Nat) (s : State) : State :=
  { s with
    cyc := nextCyc hz s
    dt := if tickFires hz s then countDown s.dt else s.dt
    st := if tickFires hz s then countDown s.st else s.st }

/-- `TimerTick()` of this machine, step 1 of every cycle of a running machine, waiting or not (40_cycle R121).  Its CLOCK_HZ is
the same in every state (log 4, log 24). -/
def timerTick (s : State) : State := timerTickWith Config.clockHz s

/-- The least key that is down, if one is (40_cycle R122, D19). -/
def firstKeyDown (s : State) : Option Nat := s.key.toList.findIdx? (fun d => d)

/-- `WaitPoll()`: the least key found down is written to the destination and ends the wait; otherwise nothing changes
(40_cycle R122). -/
def waitPoll (s : State) : State :=
  match firstKeyDown s with
  | some k => endWait (setReg s s.waitDest (BitVec.ofNat 8 k))
  | none => s

/-- A cycle spent waiting for a key: the poll, and no fetch (40_cycle R121, R122). -/
def waitingCycle (s : State) : Answer := .next (waitPoll s)

/-- A cycle of a faulted machine changes nothing: no tick, no poll, no fetch (60_exceptions R258). -/
def faultedCycle (s : State) : Answer := .next s

/-- `UnknownOpcodeHandler(w)`: nothing changes but PC, which goes to the next word (60_exceptions R256, D11).  The report
is the cycle's result, `cycleResult`. -/
def execUnknown (_w : Word) (s : State) : Answer := finish s .next

end Sys2Proof.Machine
end

