-- ==== Sys2Proof/Machine/Alu.lean ====
section
/-!
DEFINITION. Register and arithmetic instructions (42_alu).  Arithmetic is unsigned and wraps modulo 256 (R160); operands
are read before the first write, and a flag is written last, so it wins when x = F (40_cycle R127).
-/

namespace Sys2Proof.Machine

/-- A result into Vx with no flag, then `Next`. -/
def writeResult (s : State) (x : Reg) (r : Byte) : Answer := finish (setReg s x r) .next

/-- A result into Vx, then its flag into VF, then `Next` (40_cycle R127). -/
def writeResultFlag (s : State) (x : Reg) (r f : Byte) : Answer := finish (writeFlag (setReg s x r) f) .next

/-- `6xnn` LD Vx, nn (42_alu R161). -/
def execLdImm (x : Reg) (nn : Byte) (s : State) : Answer := writeResult s x nn

/-- `7xnn` ADD Vx, nn: no flag (42_alu R162). -/
def execAddImm (x : Reg) (nn : Byte) (s : State) : Answer := writeResult s x (reg s x + nn)

/-- `8xy0` LD Vx, Vy (42_alu R163). -/
def execLdReg (x y : Reg) (s : State) : Answer := writeResult s x (reg s y)

/-- `8xy1` OR Vx, Vy: VF is not reset (42_alu R164, D14). -/
def execOrReg (x y : Reg) (s : State) : Answer := writeResult s x (reg s x ||| reg s y)

/-- `8xy2` AND Vx, Vy: VF is not reset (42_alu R165, D14). -/
def execAndReg (x y : Reg) (s : State) : Answer := writeResult s x (reg s x &&& reg s y)

/-- `8xy3` XOR Vx, Vy: VF is not reset (42_alu R166, D14). -/
def execXorReg (x y : Reg) (s : State) : Answer := writeResult s x (reg s x ^^^ reg s y)

/-- `8xy4` ADD Vx, Vy: VF = carry (42_alu R167). -/
def execAddReg (x y : Reg) (s : State) : Answer :=
  writeResultFlag s x (reg s x + reg s y) (carryFlag (reg s x) (reg s y))

/-- `8xy5` SUB Vx, Vy: VF = not borrow (42_alu R168). -/
def execSubReg (x y : Reg) (s : State) : Answer :=
  writeResultFlag s x (reg s x - reg s y) (notBorrowFlag (reg s x) (reg s y))

/-- `8xy6` SHR Vx: VF = bit 0 of Vx before the shift; Vy is neither read nor written (42_alu R169). -/
def execShr (x _y : Reg) (s : State) : Answer := writeResultFlag s x (reg s x >>> 1) (lowBitFlag (reg s x))

/-- `8xy7` SUBN Vx, Vy: Vy - Vx, VF = not borrow (42_alu R170, D32). -/
def execSubnReg (x y : Reg) (s : State) : Answer :=
  writeResultFlag s x (reg s y - reg s x) (notBorrowFlag (reg s y) (reg s x))

/-- `8xyE` SHL Vx: VF = bit 7 of Vx before the shift; Vy is neither read nor written (42_alu R171). -/
def execShl (x _y : Reg) (s : State) : Answer := writeResultFlag s x (reg s x <<< 1) (highBitFlag (reg s x))

/-- `Cxnn` once its byte is drawn: Vx = r AND nn (42_alu R172). -/
def rndOf (r : Byte) (x : Reg) (nn : Byte) (s : State) : Answer := writeResult s x (r &&& nn)

/-- `Cxnn` RND Vx, nn: a fresh free byte masked by the immediate (42_alu R172, D21; log 1). -/
def execRnd (x : Reg) (nn : Byte) (s : State) : Answer := rndOf (drawByte s).1 x nn (drawByte s).2

end Sys2Proof.Machine
end

