-- ==== Sys2Proof/Machine/Control.lean ====
section
/-!
DEFINITION. Control transfer (41_control): return, jump, call, the four register skips, the indexed jump.
-/

namespace Sys2Proof.Machine

/-- `00EE` RET: PC = stack.pop(), no further +2 (41_control R140, D23); StackUnderflow when SP = 0. -/
def execRet (s : State) : Answer :=
  match pop s with
  | .ok (a, t) => finish t (.jump a)
  | .error kind => takeFault s kind

/-- `1nnn` JP (41_control R141). -/
def execJp (nnn : Addr12) (s : State) : Answer := finish s (.jump (addrOperand nnn))

/-- `2nnn` CALL: push PC + 2, then jump (41_control R142); StackOverflow when SP = 16. -/
def execCall (nnn : Addr12) (s : State) : Answer :=
  match push s (s.pc + 2) with
  | .ok t => finish t (.jump (addrOperand nnn))
  | .error kind => takeFault s kind

/-- `3xnn` SE Vx, nn (41_control R143). -/
def execSeImm (x : Reg) (nn : Byte) (s : State) : Answer := finish s (.skip (decide (reg s x = nn)))

/-- `4xnn` SNE Vx, nn (41_control R144). -/
def execSneImm (x : Reg) (nn : Byte) (s : State) : Answer := finish s (.skip (decide (reg s x ≠ nn)))

/-- `5xy0` SE Vx, Vy (41_control R145). -/
def execSeReg (x y : Reg) (s : State) : Answer := finish s (.skip (decide (reg s x = reg s y)))

/-- `9xy0` SNE Vx, Vy (41_control R146). -/
def execSneReg (x y : Reg) (s : State) : Answer := finish s (.skip (decide (reg s x ≠ reg s y)))

/-- `Bnnn` JP V0, nnn: the register is always V0 and the sum is not masked (41_control R147). -/
def execJpV0 (nnn : Addr12) (s : State) : Answer := finish s (.jump (byteOperand (reg s 0) + addrOperand nnn))

end Sys2Proof.Machine
end

