-- ==== Sys2Proof/Machine/Display.lean ====
section
/-!
DEFINITION. Display instructions and the XOR blit (44_display).
-/

namespace Sys2Proof.Machine

/-- Toggle one pixel and note a collision if it was lit (44_display R210). -/
def togglePixel (acc : Framebuffer × Bool) (x y : Nat) : Framebuffer × Bool :=
  (fbSet acc.1 x y (!fbGet acc.1 x y), acc.2 || fbGet acc.1 x y)

/-- Bit `b` of a sprite row counted from the left: bit 7 of the byte is the leftmost pixel (44_display R210, D15). -/
def spriteBit (row : Byte) (b : Nat) : Bool := row.getLsbD (7 - b)

/-- One row of a sprite, left to right from column `x0` (44_display R210). -/
def blitRow (acc : Framebuffer × Bool) (x0 y : Nat) (row : Byte) : Framebuffer × Bool :=
  [0, 1, 2, 3, 4, 5, 6, 7].foldl (fun acc b => if spriteBit row b then togglePixel acc (x0 + b) y else acc) acc

/-- The rows of a sprite, each starting again at column `x0`, one row downward per byte (44_display R210). -/
def blitRows (acc : Framebuffer × Bool) (x0 y : Nat) (rows : List Byte) : Framebuffer × Bool :=
  match rows with
  | [] => acc
  | row :: rows => blitRows (blitRow acc x0 y row) x0 (y + 1) rows

/-- `blit_sprite(x0, y0, rows)`: the framebuffer after the XOR, and whether a lit pixel was turned off
(44_display R210). -/
def blitSprite (fb : Framebuffer) (x0 y0 : Nat) (rows : List Byte) : Framebuffer × Bool :=
  blitRows (fb, false) x0 y0 rows

/-- `00E0` CLS: every pixel false (44_display R211). -/
def execCls (s : State) : Answer := finish (setFb s fbClear) .next

/-- What `Dxyn` draws: the blit of `n` bytes at I, at (Vx mod 64, Vy mod 32) (44_display R212). -/
def drawnSprite (s : State) (x y : Reg) (n : Nibble) : Framebuffer × Bool :=
  blitSprite s.fb ((reg s x).toNat % 64) ((reg s y).toNat % 32) (bytesAtIndex s 0 n.toNat)

/-- `Dxyn` DRW Vx, Vy, n: VF = collision, written last; n = 0 draws nothing and writes VF = 0 (44_display R212, D16). -/
def execDrw (x y : Reg) (n : Nibble) (s : State) : Answer :=
  finish (writeFlag (setFb s (drawnSprite s x y n).1) (flagByte (drawnSprite s x y n).2)) .next

end Sys2Proof.Machine
end

