-- ==== Sys2Proof/Machine/IndexMemory.lean ====
section
/-!
DEFINITION. Index register and memory instructions (43_index_memory).  I is never masked, and no transfer changes it
(10_state R24, D13); every memory address is reduced modulo 4096 (20_memory R61).
-/

namespace Sys2Proof.Machine

/-- `Annn` LD I, nnn (43_index_memory R190). -/
def execLdI (nnn : Addr12) (s : State) : Answer := finish (setIndex s (addrOperand nnn)) .next

/-- `Fx1E` ADD I, Vx: VF = carry out of the 16 bits of I, written last (43_index_memory R191, D12). -/
def execAddI (x : Reg) (s : State) : Answer :=
  finish (writeFlag (setIndex s (s.i + byteOperand (reg s x))) (indexCarryFlag s.i (reg s x))) .next

/-- `Fx29` LD F, Vx: I = Vx * 5, the whole of Vx (43_index_memory R192). -/
def execLdF (x : Reg) (s : State) : Answer := finish (setIndex s (byteOperand (reg s x) * 5)) .next

/-- Decimal digits of a byte: hundreds, tens, ones (43_index_memory R193). -/
def bcdDigits (b : Byte) : Byte × Byte × Byte := (b / 100, b / 10 % 10, b % 10)

/-- `Fx33` LD B, Vx: three digits at I, I + 1, I + 2, each address wrapping on its own (43_index_memory R193). -/
def execLdB (x : Reg) (s : State) : Answer :=
  finish
    (memWrite
      (memWrite (memWrite s (effectiveAddress s 0) (bcdDigits (reg s x)).1) (effectiveAddress s 1)
        (bcdDigits (reg s x)).2.1)
      (effectiveAddress s 2) (bcdDigits (reg s x)).2.2)
    .next

/-- `Fx55` LD [I], Vx: store V0 to Vx inclusive; I is not changed (43_index_memory R194, D13). -/
def execStRegs (x : Reg) (s : State) : Answer := finish (storeRegs s (x.val + 1)) .next

/-- `Fx65` LD Vx, [I]: load V0 to Vx inclusive; I is not changed (43_index_memory R195, D13). -/
def execLdRegs (x : Reg) (s : State) : Answer := finish (loadRegs s (x.val + 1)) .next

end Sys2Proof.Machine
end

