-- ==== Sys2Proof/Machine/KeypadTimers.lean ====
section
/-!
DEFINITION. Keypad and timer instructions (45_timers_keypad).
-/

namespace Sys2Proof.Machine

/-- `Ex9E` SKP Vx: skip if key Vx is down (45_timers_keypad R231). -/
def execSkp (x : Reg) (s : State) : Answer := finish (isDown s (reg s x)).2 (.skip (isDown s (reg s x)).1)

/-- `ExA1` SKNP Vx: skip if key Vx is not down (45_timers_keypad R232). -/
def execSknp (x : Reg) (s : State) : Answer := finish (isDown s (reg s x)).2 (.skip (!(isDown s (reg s x)).1))

/-- `Fx07` LD Vx, DT: the value after this cycle's tick (45_timers_keypad R233). -/
def execLdVxDt (x : Reg) (s : State) : Answer := finish (setReg s x s.dt) .next

/-- `Fx15` LD DT, Vx (45_timers_keypad R234). -/
def execLdDtVx (x : Reg) (s : State) : Answer := finish (setDelay s (reg s x)) .next

/-- `Fx18` LD ST, Vx: no sound is produced (45_timers_keypad R235, 60_exceptions R253). -/
def execLdStVx (x : Reg) (s : State) : Answer := finish (setSound s (reg s x)) .next

/-- `Fx0A` LD Vx, K: enter the wait; Vx is written by the cycle whose poll finds a key (45_timers_keypad R236, D18). -/
def execLdVxK (x : Reg) (s : State) : Answer := finish (beginWait s x) .next

end Sys2Proof.Machine
end

