-- ==== Sys2Proof/Machine/Run.lean ====
section
/-!
DEFINITION. The order of one cycle (40_cycle R121, 60_exceptions R261), and what a cycle returns to the host
(40_cycle R130).
-/

namespace Sys2Proof.Machine

/-- Step 3 of a cycle: fetch at PC, decode, execute (40_cycle R121, R123 to R125). -/
def fetchAndRun (s : State) : Answer :=
  match decode (fetch s) with
  | .instr i => exec i s
  | .unknownOpcode w => execUnknown w s

/-- Steps 2 and 3 of a cycle, on the state after the tick: the wait poll while waiting, which excludes the fetch
(40_cycle R121). -/
def runCycle (s : State) : Answer :=
  match s.waiting with
  | true => waitingCycle s
  | false => fetchAndRun s

/-- `cycle()` (40_cycle R121): a faulted machine does nothing; a running one ticks, then polls or runs one
instruction. -/
def cycle (s : State) : Answer :=
  match s.fault with
  | some _ => faultedCycle s
  | none => runCycle (timerTick s)

/-- What a cycle returns to the host (40_cycle R130).  It is no state: "the report is not recorded in any state"
(60_exceptions R256; log 6). -/
inductive CycleResult where
  /-- `Ok`. -/
  | ok
  /-- `Ok` with the report of an unknown word and the PC it was fetched at. -/
  | unknownOpcode (pc w : Word)
  /-- `Fault(kind)`. -/
  | fault (kind : Fault)
  deriving DecidableEq, Repr

/-- The result of a cycle that executed an instruction: `Fault(kind)` if it took a fatal fault, else `Ok`
(40_cycle R121).  The last two cases do not occur. -/
def resultOfAnswer (a : Answer) : CycleResult :=
  match a with
  | .next t =>
    match t.fault with
    | some kind => .fault kind
    | none => .ok
  | .fault kind => .fault kind
  | .refused _ => .ok

/-- The result that the cycle starting in this state returns (40_cycle R121, R130). -/
def cycleResult (s : State) : CycleResult :=
  match s.fault with
  | some kind => .fault kind
  | none =>
    match s.waiting with
    | true => .ok
    | false =>
      match decode (fetch s) with
      | .instr i => resultOfAnswer (exec i (timerTick s))
      | .unknownOpcode w => .unknownOpcode s.pc w

/-- The code of a result's condition: 1 UnknownOpcode, 2 StackOverflow, 3 StackUnderflow (60_exceptions R255, D10). -/
def conditionCode (r : CycleResult) : Option Nat :=
  match r with
  | .ok => none
  | .unknownOpcode _ _ => some 1
  | .fault .stackOverflow => some 2
  | .fault .stackUnderflow => some 3

end Sys2Proof.Machine
end

