-- ==== Sys2Proof/Machine/Step.lean ====
section
/-!
DEFINITION. One step of the machine: one call of `cycle()` (40_cycle R120, R121).
-/

namespace Sys2Proof.Machine

/-- One call of `cycle()` (40_cycle R120).  What it returns to the host is `cycleResult`. -/
def step (s : State) : Host.Outcome State Fault Refusal := cycle s

/-- The state with an instruction word, numbered as the opcode table numbers it, stored at PC, high byte first, and with
the machine running, so that the very next step fetches and runs it (log 8). -/
def State.withFetchWord (s : State) (nbits w : Nat) : State :=
  { memWrite (memWrite s s.pc.toNat (highByte (tableWord nbits w))) (s.pc.toNat + 1) (lowByte (tableWord nbits w)) with
    waiting := false
    fault := none }

end Sys2Proof.Machine
end

