-- ==== Sys2Proof/Machine/HostOps.lean ====
section
/-!
DEFINITION. The host's operations between cycles (10_state R40): `reset`, `load`, `set_key`, and the reads of the
framebuffer, the timers and FAULT.  None of them is part of a step (20_memory R72).
-/

namespace Sys2Proof.Machine

/-- `reset()`: every element of the spec's state to its reset value (70_reset_and_hazards R281).  The model's draw counter
goes on, so that the draws after a reset are fresh (log 3). -/
def hostReset (s : State) : State := { State.reset with draws := s.draws }

/-- Copy bytes into memory from an address on, each address wrapping (20_memory R67). -/
def loadBytes (s : State) (a : Nat) (bytes : List Byte) : State :=
  match bytes with
  | [] => s
  | b :: bytes => loadBytes (memWrite s a b) (a + 1) bytes

/-- `load(base, bytes)`: any length, in any state, faulted or not (20_memory R67, D27). -/
def hostLoad (s : State) (base : Word) (bytes : List Byte) : State := loadBytes s base.toNat bytes

/-- `set_key(k, down)` (10_state R33, R40). -/
def hostSetKey (s : State) (k : Fin 16) (down : Bool) : State := { s with key := s.key.set k.val down }

/-- The host's read of one pixel of the grid (10_state R41). -/
def hostPixel (s : State) (x : Fin 64) (y : Fin 32) : Bool := pixel s x.val y.val

/-- The host's read of the two timers, DT and ST (10_state R41). -/
def hostTimers (s : State) : Byte × Byte := (s.dt, s.st)

/-- The host's read of the fatal-fault status (10_state R36, R40). -/
def hostFault (s : State) : Option Fault := s.fault

end Sys2Proof.Machine
end

