-- ==== Sys2Proof/Safety.lean ====
section
/-!
DEFINITION. The terms the statements use: the parts of the state and what it means that a part is unchanged, the parts
and registers each instruction may write (10_state R21, R22, R38; 20_memory R64), the invariant of the machine, its
control states (40_cycle R129), and the pixels a sprite covers (44_display R210).
-/

namespace Sys2Proof.Machine

/-- The parts of the state, one for each row of 10_state R38 and one for the model's draw counter. -/
inductive Part where
  /-- The general registers. -/
  | v
  /-- The index register. -/
  | i
  /-- The program counter. -/
  | pc
  /-- The delay timer. -/
  | dt
  /-- The sound timer. -/
  | st
  /-- The entries of the stack. -/
  | stack
  /-- The stack pointer. -/
  | sp
  /-- The framebuffer. -/
  | fb
  /-- Memory. -/
  | mem
  /-- The key-down states. -/
  | key
  /-- The waiting flag. -/
  | waiting
  /-- The register that receives the key. -/
  | waitDest
  /-- The cycle counter. -/
  | cyc
  /-- The fatal-fault record. -/
  | fault
  /-- The model's draw counter. -/
  | draws
  deriving DecidableEq, Repr

/-- A part reads the same in two states, read through the model's own reads: one register, one byte of memory, one pixel,
one stack entry, one key. -/
def Part.same (p : Part) (s t : State) : Prop :=
  match p with
  | .v => ∀ r : Reg, reg t r = reg s r
  | .i => t.i = s.i
  | .pc => t.pc = s.pc
  | .dt => t.dt = s.dt
  | .st => t.st = s.st
  | .stack => ∀ k : Fin 16, t.stack[k.val] = s.stack[k.val]
  | .sp => t.sp = s.sp
  | .fb => ∀ x y : Nat, pixel t x y = pixel s x y
  | .mem => ∀ a : Nat, memRead t a = memRead s a
  | .key => ∀ k : Fin 16, t.key[k.val] = s.key[k.val]
  | .waiting => t.waiting = s.waiting
  | .waitDest => t.waitDest = s.waitDest
  | .cyc => t.cyc = s.cyc
  | .fault => t.fault = s.fault
  | .draws => t.draws = s.draws

/-- Every part but the named ones reads the same in both states. -/
def unchangedExcept (written : List Part) (s t : State) : Prop := ∀ p : Part, p ∉ written → p.same s t

/-- The parts an instruction may write: the "instr. write" column of 10_state R38, with PC for every instruction. -/
def writtenBy (i : Instr) : List Part :=
  match i with
  | .cls => [.pc, .fb]
  | .ret => [.pc, .sp, .fault]
  | .jp _ => [.pc]
  | .call _ => [.pc, .stack, .sp, .fault]
  | .seImm _ _ => [.pc]
  | .sneImm _ _ => [.pc]
  | .seReg _ _ => [.pc]
  | .ldImm _ _ => [.pc, .v]
  | .addImm _ _ => [.pc, .v]
  | .ldReg _ _ => [.pc, .v]
  | .orReg _ _ => [.pc, .v]
  | .andReg _ _ => [.pc, .v]
  | .xorReg _ _ => [.pc, .v]
  | .addReg _ _ => [.pc, .v]
  | .subReg _ _ => [.pc, .v]
  | .shr _ _ => [.pc, .v]
  | .subnReg _ _ => [.pc, .v]
  | .shl _ _ => [.pc, .v]
  | .sneReg _ _ => [.pc]
  | .ldI _ => [.pc, .i]
  | .jpV0 _ => [.pc]
  | .rnd _ _ => [.pc, .v, .draws]
  | .drw _ _ _ => [.pc, .v, .fb]
  | .skp _ => [.pc, .draws]
  | .sknp _ => [.pc, .draws]
  | .ldVxDt _ => [.pc, .v]
  | .ldDtVx _ => [.pc, .dt]
  | .ldStVx _ => [.pc, .st]
  | .addI _ => [.pc, .i, .v]
  | .ldVxK _ => [.pc, .waiting, .waitDest]
  | .ldF _ => [.pc, .i]
  | .ldB _ => [.pc, .mem]
  | .stRegs _ => [.pc, .mem]
  | .ldRegs _ => [.pc, .v]

/-- The instructions that write a flag into VF are exactly `8xy4`, `8xy5`, `8xy6`, `8xy7`, `8xyE`, `Dxyn` and `Fx1E`
(10_state R22, 90_conflicts C9). -/
def definesFlag (i : Instr) : Bool :=
  match i with
  | .addReg _ _ => true
  | .subReg _ _ => true
  | .shr _ _ => true
  | .subnReg _ _ => true
  | .shl _ _ => true
  | .drw _ _ _ => true
  | .addI _ => true
  | _ => false

/-- The register is named as a destination by the instruction: Vx of `6xnn`, `7xnn`, `8xy0` to `8xyE`, `Cxnn`, `Fx07`, and
V0 to Vx of `Fx65` (10_state R21). -/
def namesDestination (i : Instr) (r : Reg) : Prop :=
  match i with
  | .ldImm x _ => r = x
  | .addImm x _ => r = x
  | .ldReg x _ => r = x
  | .orReg x _ => r = x
  | .andReg x _ => r = x
  | .xorReg x _ => r = x
  | .addReg x _ => r = x
  | .subReg x _ => r = x
  | .shr x _ => r = x
  | .subnReg x _ => r = x
  | .shl x _ => r = x
  | .rnd x _ => r = x
  | .ldVxDt x => r = x
  | .ldRegs x => r ≤ x
  | _ => False

/-- The invariant every step keeps: memory has its canonical form (log 7), CYC is below CLOCK_HZ (10_state R20), and no
faulted machine is waiting (40_cycle R129: "no fault can be raised there"). -/
structure State.Inv (s : State) : Prop where
  /-- The canonical form of memory. -/
  memWf : s.mem.wf = true
  /-- CYC lies in 0 to CLOCK_HZ - 1. -/
  cycBelow : s.cyc < Config.clockHz
  /-- A machine is not faulted and waiting at once. -/
  oneMode : s.fault ≠ none → s.waiting = false

/-- The control states of the machine (40_cycle R129). -/
inductive ControlState where
  /-- Running, not waiting. -/
  | running
  /-- The keypad wait is active. -/
  | waiting
  /-- FAULT is set. -/
  | faulted
  deriving DecidableEq, Repr

/-- The control state a machine is in (40_cycle R129). -/
def controlState (s : State) : ControlState :=
  match s.fault with
  | some _ => .faulted
  | none => if s.waiting then .waiting else .running

/-- Some key is down. -/
def someKeyDown (s : State) : Prop := ∃ k : Fin 16, s.key[k.val] = true

/-- A sprite of bytes drawn at `(x0, y0)` has a 1 bit on the pixel `(px, py)`: row `r` of the sprite is at `y0 + r`, its
bit 7 at column `x0`, and coordinates wrap (44_display R210). -/
def spriteCovers (x0 y0 : Nat) (rows : List Byte) (px py : Nat) : Prop :=
  ∃ (r : Nat) (b : Nat) (row : Byte), rows[r]? = some row ∧ b < 8 ∧ row.getLsbD (7 - b) = true ∧
    (x0 + b) % 64 = px % 64 ∧ (y0 + r) % 32 = py % 32

/-- Agreement of two states on everything that is not above the top of the stack: all parts but the entries of the stack,
and of those the entries below SP (10_state R29). -/
def agreeBelowTop (s t : State) : Prop :=
  { t with stack := s.stack } = s ∧ ∀ k : Fin 16, k.val < s.sp.val → t.stack[k.val] = s.stack[k.val]

end Sys2Proof.Machine
end

