-- ==== Sys2Proof/Certificates/Slice0/Obligations.lean ====
section
/-!
DEFINITION. The statements for the provers, family by family.  Each docstring names the rule of spec/ it formalises; where a
clause rests on one of the spec's own decisions (92_eei_decisions D<n>) or on the model's choice, it says so and names
the assumption-log entry.  `pcAfter` is the PC action of 40_cycle R126; `unchangedExcept` reads every part of the state
through the model's own reads.
-/

open Sys2Proof Sys2Proof.Machine

/-! ### Encoding -/

/-- Words written out from the patterns of 30_encoding R94, some of each family and some unknown ones (R95), decode to what
they stand for. -/
def Obligations.FewWordsOfEachFamilyDecode : Prop :=
  decode 0x00E0 = .instr .cls ∧ decode 0x00EE = .instr .ret ∧ decode 0x1ABC = .instr (.jp 0xABC) ∧
  decode 0x5120 = .instr (.seReg 1 2) ∧ decode 0x6A5C = .instr (.ldImm 10 0x5C) ∧
  decode 0x8124 = .instr (.addReg 1 2) ∧ decode 0x812E = .instr (.shl 1 2) ∧ decode 0xA123 = .instr (.ldI 0x123) ∧
  decode 0xD232 = .instr (.drw 2 3 2) ∧ decode 0xE19E = .instr (.skp 1) ∧ decode 0xF30A = .instr (.ldVxK 3) ∧
  decode 0xFF65 = .instr (.ldRegs 15) ∧ decode 0x5121 = .unknownOpcode 0x5121 ∧
  decode 0x0000 = .unknownOpcode 0x0000 ∧ decode 0x8128 = .unknownOpcode 0x8128

/-- Decode after encode, for every instruction and every operand (30_encoding, fields and opcode map): no bit of an encoding
is dropped.  Every `Instr` is well formed by its types, and its word is one that 30_encoding R95 does not list as
unknown. -/
def Obligations.DecodingAnEncodedInstructionGivesItBack : Prop :=
  ∀ i : Instr, decode (encode i) = .instr i ∧ Word.wellFormed (encode i) = true

/-- Encode after decode: a word that is an instruction is exactly that instruction's word, so no two words share an
instruction. -/
def Obligations.EncodingADecodedWordGivesItBack : Prop :=
  ∀ (w : Word) (i : Instr), decode w = .instr i → encode i = w

/-- The decoder agrees with the mask form of the opcode map (30_encoding section 2; literal digits must match by the
spec's decision D11, log 13): a word is an instruction exactly when some row matches it, it is then its own row's
instruction, and at most one row matches any word. -/
def Obligations.DecoderAgreesWithTheMaskTable : Prop :=
  ∀ w : Word,
    ((∃ i, decode w = .instr i) ↔ ∃ r ∈ opcodeRows, r.hits w = true) ∧
    (∀ i, decode w = .instr i → opcodeRow i ∈ opcodeRows ∧ (opcodeRow i).hits w = true) ∧
    (∀ r₁ ∈ opcodeRows, ∀ r₂ ∈ opcodeRows, r₁.hits w = true → r₂.hits w = true → r₁ = r₂)

/-- The decoder is total, and the words it calls unknown are exactly those of the table of unknown words (30_encoding
section 3; the spec's inference from its opcode map and decisions D11, D31, log 13). -/
def Obligations.UnknownWordsAreThoseOfTheTable : Prop :=
  ∀ w : Word,
    (decode w = .unknownOpcode w ↔ Word.wellFormed w = false) ∧ (∀ w', decode w = .unknownOpcode w' → w' = w)

/-! ### The cycle -/

/-- A step of a running machine runs the instruction decoded from the two bytes at PC, high byte first, on the state after
the tick; the tick changes only CYC, DT and ST, so PC, registers and memory are those the word was fetched with
(40_cycle section 1). -/
def Obligations.StepRunsTheDecodedInstruction : Prop :=
  ∀ (s : State) (i : Instr), s.fault = none → s.waiting = false →
    decode (wordOfBytes (memRead s s.pc.toNat) (memRead s (s.pc.toNat + 1))) = .instr i →
    step s = exec i (timerTick s) ∧ unchangedExcept [.cyc, .dt, .st] s (timerTick s)

/-- No cycle stops the machine: every state has a next state (40_cycle section 4: "there is no terminal state"; a fatal
fault is a next state whose FAULT is set, the model's choice of log 5). -/
def Obligations.EveryStepAnswersANextState : Prop :=
  ∀ s : State, ∃ t : State, step s = .next t

/-- Every step keeps the invariant: memory in its canonical form (log 7), CYC below CLOCK_HZ (10_state section 1), and no
machine faulted and waiting at once (40_cycle section 4). -/
def Obligations.EveryStepKeepsTheInvariant : Prop :=
  ∀ s t : State, s.Inv → step s = .next t → t.Inv

/-- The state after reset meets the invariant. -/
def Obligations.ResetMeetsTheInvariant : Prop := State.reset.Inv

/-- The host's operations between cycles keep the invariant (10_state section 10). -/
def Obligations.HostOperationsKeepTheInvariant : Prop :=
  ∀ s : State, s.Inv →
    (hostReset s).Inv ∧ (∀ (base : Word) (bytes : List Byte), (hostLoad s base bytes).Inv) ∧
    (∀ (k : Fin 16) (down : Bool), (hostSetKey s k down).Inv)

/-- A faulted machine changes nothing, not even its timers, and its cycle returns the fault (60_exceptions section 2; the
spec's decision D9, log 12; a next state by the model's choice, log 5). -/
def Obligations.FaultedMachineChangesNothing : Prop :=
  ∀ (s : State) (k : Fault), s.fault = some k → step s = .next s ∧ cycleResult s = .fault k

/-- Only a call on a full stack and a return on an empty one take a fatal fault, and the fault writes FAULT and nothing else:
no instruction completes partly (60_exceptions section 2; the spec's decision D9, log 12). -/
def Obligations.FatalFaultsComeOnlyFromCallAndReturn : Prop :=
  ∀ (i : Instr) (s t : State) (k : Fault), s.fault = none → exec i s = .next t → t.fault = some k →
    (((∃ nnn, i = .call nnn) ∧ s.sp.val = 16 ∧ k = .stackOverflow) ∨
      (i = .ret ∧ s.sp.val = 0 ∧ k = .stackUnderflow)) ∧
    t = { s with fault := some k }

/-- A waiting cycle ticks and polls, and executes no instruction: with no key down nothing but the tick happens; else the
least key down goes into the destination register and the wait ends, with PC unchanged (40_cycle section 1; least key and
level by the spec's decision D19, log 17). -/
def Obligations.WaitingCycleTakesTheLeastKeyDown : Prop :=
  ∀ s : State, s.fault = none → s.waiting = true →
    cycleResult s = .ok ∧
    (¬ someKeyDown s → step s = .next (timerTick s)) ∧
    (∀ k : Fin 16, s.key[k.val] = true → (∀ j : Fin 16, j < k → s.key[j.val] = false) →
      ∃ t, step s = .next t ∧
        (∀ r, reg t r = if r = s.waitDest then BitVec.ofNat 8 k.val else reg s r) ∧
        t.waiting = false ∧ t.pc = s.pc ∧ unchangedExcept [.v, .waiting] (timerTick s) t)

/-- An unknown word is reported with its PC and skipped: beyond the tick nothing changes but PC, which takes the action
`Next` (60_exceptions section 2; the spec's decision D11, log 13; the report is the cycle's result, log 6). -/
def Obligations.UnknownWordIsReportedAndSkipped : Prop :=
  ∀ (s : State) (w : Word), s.fault = none → s.waiting = false → decode (fetch s) = .unknownOpcode w →
    cycleResult s = .unknownOpcode s.pc (fetch s) ∧
    ∃ t, step s = .next t ∧ t.pc = s.pc + 2 ∧ unchangedExcept [.pc] (timerTick s) t

/-- The timer tick: CYC advances modulo CLOCK_HZ, and both timers count down exactly when it is then a multiple of
CLOCK_HZ div 60; this machine's CLOCK_HZ is the requested value clamped to at least 60 (60_exceptions section 1; the
spec's decisions D5 and D6, log 11, log 4). -/
def Obligations.TimerTickFollowsTheDivider : Prop :=
  (∀ (hz : Nat) (s : State),
    timerTickWith hz s =
      if (s.cyc + 1) % hz % (hz / 60) = 0 then decrementTimers { s with cyc := (s.cyc + 1) % hz }
      else { s with cyc := (s.cyc + 1) % hz }) ∧
  (∀ s : State, timerTick s = timerTickWith Config.clockHz s) ∧
  60 ≤ Config.clockHz ∧ (60 ≤ Config.requestedClockHz → Config.clockHz = Config.requestedClockHz)

/-- `Decrement()` counts each timer down by one and stops at 0 (60_exceptions R250). -/
def Obligations.TimersSaturateAtZero : Prop :=
  ∀ s : State,
    (0 < s.dt.toNat → (decrementTimers s).dt.toNat = s.dt.toNat - 1) ∧ (s.dt = 0 → (decrementTimers s).dt = 0) ∧
    (0 < s.st.toNat → (decrementTimers s).st.toNat = s.st.toNat - 1) ∧ (s.st = 0 → (decrementTimers s).st = 0) ∧
    unchangedExcept [.dt, .st] s (decrementTimers s)

/-- From CYC = 0 the first decrement is at the N-th tick, N = CLOCK_HZ div 60 (60_exceptions section 1; the spec's decision
D5, log 11). -/
def Obligations.FirstDecrementIsAtTheNthTick : Prop :=
  ∀ (hz : Nat) (s : State), 60 ≤ hz → s.cyc = 0 →
    (∀ n < hz / 60, ((timerTickWith hz)^[n] s).dt = s.dt ∧ ((timerTickWith hz)^[n] s).st = s.st) ∧
    ((timerTickWith hz)^[hz / 60] s).dt = countDown s.dt ∧ ((timerTickWith hz)^[hz / 60] s).st = countDown s.st

/-- What a cycle returns: `Fault(kind)` exactly when FAULT holds the kind after it, and the report of an unknown word exactly
when the running machine fetched one (40_cycle section 4; the spec's decision D9, log 12; log 6). -/
def Obligations.CycleResultReportsTheCycle : Prop :=
  ∀ s t : State, step s = .next t →
    (∀ k, cycleResult s = .fault k ↔ t.fault = some k) ∧
    (∀ pc w, cycleResult s = .unknownOpcode pc w ↔
      s.fault = none ∧ s.waiting = false ∧ pc = s.pc ∧ w = fetch s ∧ decode (fetch s) = .unknownOpcode (fetch s))

/-- The machine's control states follow the transition table (40_cycle section 4; the spec's decision D9, log 12). -/
def Obligations.ControlStatesFollowTheTable : Prop :=
  (∀ s t : State, step s = .next t →
    (controlState s = .running →
      (controlState t = .waiting ↔ ∃ x, decode (fetch s) = .instr (.ldVxK x)) ∧
      (controlState t = .faulted ↔ ∃ k, cycleResult s = .fault k)) ∧
    (controlState s = .waiting →
      (controlState t = .running ↔ someKeyDown s) ∧ (controlState t = .waiting ↔ ¬ someKeyDown s)) ∧
    (controlState s = .faulted → t = s)) ∧
  (∀ s : State, controlState (hostReset s) = .running)

/-! ### Whole-machine frames -/

/-- No instruction writes a part of the state that the access table does not give it (10_state section 9, the column of
instruction writes; 20_memory section 2): only `Fx33` and `Fx55` change a byte of memory, only `2nnn` and `00EE` touch the
stack, only `00E0` and `Dxyn` the framebuffer, and none the keys or CYC. -/
def Obligations.InstructionsWriteOnlyTheirParts : Prop :=
  ∀ (i : Instr) (s t : State), exec i s = .next t → unchangedExcept (writtenBy i) s t

/-- A general register changes only if the instruction names it as a destination, or it is VF and the instruction defines a
flag (10_state section 2, 90_conflicts C9): `7xnn` and `8xy1` to `8xy3` leave VF alone. -/
def Obligations.RegistersChangeOnlyIfNamedOrFlag : Prop :=
  ∀ (i : Instr) (s t : State) (r : Reg), exec i s = .next t → ¬ namesDestination i r →
    ¬ (definesFlag i = true ∧ r = vf) → reg t r = reg s r

/-- The three PC actions, modulo 65536 (40_cycle section 2; the wrap is the spec's decision D4, log 10): they change PC and
nothing else. -/
def Obligations.PcActionsMovePc : Prop :=
  ∀ (s : State) (a : Word) (c : Bool),
    ((applyPcAction s .next).pc.toNat = (s.pc.toNat + 2) % 65536) ∧
    ((applyPcAction s (.jump a)).pc = a) ∧
    ((applyPcAction s (.skip c)).pc.toNat = (s.pc.toNat + if c then 4 else 2) % 65536) ∧
    (∀ action, (applyPcAction s action).pc = pcAfter action s.pc ∧ unchangedExcept [.pc] s (applyPcAction s action))

/-! ### Control transfer (41_control) -/

/-- `1nnn` goes to its 12-bit address (41_control R141). -/
def Obligations.JumpGoesToItsAddress : Prop :=
  ∀ (s : State) (nnn : Addr12),
    decode (encodeAddr 0x1 nnn) = .instr (.jp nnn) ∧
    ∃ t, exec (.jp nnn) s = .next t ∧ t.pc.toNat = nnn.toNat ∧ unchangedExcept [.pc] s t

/-- `2nnn` pushes PC + 2 modulo 65536 and goes to its address; on a full stack it writes nothing but FAULT, and PC stays on
it (41_control, call; what the fault records and the wrap of PC + 2 are the spec's decisions D9 and D4, log 12, log 10). -/
def Obligations.CallPushesTheReturnAddress : Prop :=
  ∀ (s : State) (nnn : Addr12),
    decode (encodeAddr 0x2 nnn) = .instr (.call nnn) ∧
    (∀ h : s.sp.val < 16, ∃ t, exec (.call nnn) s = .next t ∧
      t.sp.val = s.sp.val + 1 ∧ (t.stack[s.sp.val]).toNat = (s.pc.toNat + 2) % 65536 ∧
      (∀ k : Fin 16, k.val ≠ s.sp.val → t.stack[k.val] = s.stack[k.val]) ∧
      t.pc.toNat = nnn.toNat ∧ unchangedExcept [.pc, .stack, .sp] s t) ∧
    (s.sp.val = 16 → exec (.call nnn) s = .next { s with fault := some .stackOverflow })

/-- `00EE` goes to the popped address, no further +2; the entries of the stack keep their values; on an empty stack it
writes nothing but FAULT, and PC stays on it (41_control, return; the spec's decisions D22, D23 and D9, log 18, log 12). -/
def Obligations.ReturnPopsTheReturnAddress : Prop :=
  ∀ s : State,
    decode 0x00EE = .instr .ret ∧
    (∀ h : 0 < s.sp.val, ∃ t, exec .ret s = .next t ∧
      t.sp.val = s.sp.val - 1 ∧ t.pc = s.stack[s.sp.val - 1]'(by omega) ∧ unchangedExcept [.pc, .sp] s t) ∧
    (s.sp.val = 0 → exec .ret s = .next { s with fault := some .stackUnderflow })

/-- A return after a call that found room goes to the word after the call and leaves everything but the stack's entries
as it was (41_control, call and return; the spec's decision D23, log 18). -/
def Obligations.ReturnUndoesCall : Prop :=
  ∀ (s t : State) (nnn : Addr12), s.sp.val < 16 → exec (.call nnn) s = .next t →
    ∃ u, exec .ret t = .next u ∧ u.pc = s.pc + 2 ∧ unchangedExcept [.pc, .stack] s u

/-- "push(a); push(b); pop() == b; pop() == a" (95_test_vectors E4, 10_state section 5): the pops give the values back in the
opposite order and leave SP as it was. -/
def Obligations.StackRoundTrip : Prop :=
  ∀ (s : State) (a b : Word), s.sp.val ≤ 14 →
    ∃ s₁ s₂ s₃ s₄, push s a = .ok s₁ ∧ push s₁ b = .ok s₂ ∧ pop s₂ = .ok (b, s₃) ∧ pop s₃ = .ok (a, s₄) ∧
      s₄.sp = s.sp ∧ unchangedExcept [.stack] s s₄

/-- The four register skips: `3xnn` on equal, `4xnn` on different immediate, `5xy0` on equal, `9xy0` on different registers;
with a last digit other than 0 the last two are unknown words (41_control R143, R144, R145, R146). -/
def Obligations.SkipsCompare : Prop :=
  ∀ (s : State) (x y : Reg) (nn : Byte),
    (decode (encodeRegByte 0x3 x nn) = .instr (.seImm x nn) ∧ ∃ t, exec (.seImm x nn) s = .next t ∧
      t.pc = pcAfter (.skip (reg s x == nn)) s.pc ∧ unchangedExcept [.pc] s t) ∧
    (decode (encodeRegByte 0x4 x nn) = .instr (.sneImm x nn) ∧ ∃ t, exec (.sneImm x nn) s = .next t ∧
      t.pc = pcAfter (.skip (reg s x != nn)) s.pc ∧ unchangedExcept [.pc] s t) ∧
    (decode (encodeRegReg 0x5 x y 0) = .instr (.seReg x y) ∧ ∃ t, exec (.seReg x y) s = .next t ∧
      t.pc = pcAfter (.skip (reg s x == reg s y)) s.pc ∧ unchangedExcept [.pc] s t) ∧
    (decode (encodeRegReg 0x9 x y 0) = .instr (.sneReg x y) ∧ ∃ t, exec (.sneReg x y) s = .next t ∧
      t.pc = pcAfter (.skip (reg s x != reg s y)) s.pc ∧ unchangedExcept [.pc] s t) ∧
    (∀ n : Nibble, n ≠ 0 → decode (encodeRegReg 0x5 x y n) = .unknownOpcode (encodeRegReg 0x5 x y n) ∧
      decode (encodeRegReg 0x9 x y n) = .unknownOpcode (encodeRegReg 0x9 x y n))

/-- `Bnnn` goes to V0 + nnn, at most 0x10FE, not masked to 12 bits and fetched modulo 4096; the register is always V0
(41_control R147). -/
def Obligations.IndexedJumpAddsV0 : Prop :=
  ∀ (s : State) (nnn : Addr12),
    decode (encodeAddr 0xB nnn) = .instr (.jpV0 nnn) ∧
    ∃ t, exec (.jpV0 nnn) s = .next t ∧ t.pc.toNat = (reg s 0).toNat + nnn.toNat ∧
      fetch t = wordOfBytes (cellsRead s.mem (((reg s 0).toNat + nnn.toNat) % 4096))
        (cellsRead s.mem (((reg s 0).toNat + nnn.toNat + 1) % 4096)) ∧
      unchangedExcept [.pc] s t

/-! ### Registers and arithmetic (42_alu) -/

/-- `6xnn` writes the immediate into Vx (42_alu R161). -/
def Obligations.LoadImmediateWritesVx : Prop :=
  ∀ (s : State) (x : Reg) (nn : Byte),
    decode (encodeRegByte 0x6 x nn) = .instr (.ldImm x nn) ∧
    ∃ t, exec (.ldImm x nn) s = .next t ∧ (∀ r, reg t r = if r = x then nn else reg s r) ∧
      t.pc = pcAfter .next s.pc ∧ unchangedExcept [.pc, .v] s t

/-- `7xnn` adds modulo 256 and writes no flag; after `6xnn` then `7xnn`, Vx is the sum of the immediates modulo 256
(42_alu R162). -/
def Obligations.AddImmediateWrapsWithoutFlag : Prop :=
  ∀ (s : State) (x : Reg) (nn : Byte),
    decode (encodeRegByte 0x7 x nn) = .instr (.addImm x nn) ∧
    (∃ t, exec (.addImm x nn) s = .next t ∧ (reg t x).toNat = ((reg s x).toNat + nn.toNat) % 256 ∧
      (∀ r, r ≠ x → reg t r = reg s r) ∧ t.pc = pcAfter .next s.pc ∧ unchangedExcept [.pc, .v] s t) ∧
    (∀ first : Byte, ∃ t u, exec (.ldImm x first) s = .next t ∧ exec (.addImm x nn) t = .next u ∧
      (reg u x).toNat = (first.toNat + nn.toNat) % 256)

/-- `8xy0` copies Vy into Vx (42_alu R163). -/
def Obligations.CopyWritesVx : Prop :=
  ∀ (s : State) (x y : Reg),
    decode (encodeRegReg 0x8 x y 0x0) = .instr (.ldReg x y) ∧
    ∃ t, exec (.ldReg x y) s = .next t ∧ (∀ r, reg t r = if r = x then reg s y else reg s r) ∧
      t.pc = pcAfter .next s.pc ∧ unchangedExcept [.pc, .v] s t

/-- `8xy1`, `8xy2`, `8xy3` write the bitwise or, and, exclusive or into Vx and leave every other register, VF among them
(42_alu section 3; VF is not reset by the spec's decision D14, log 15). -/
def Obligations.LogicOperationsLeaveVf : Prop :=
  ∀ (s : State) (x y : Reg),
    (decode (encodeRegReg 0x8 x y 0x1) = .instr (.orReg x y) ∧ ∃ t, exec (.orReg x y) s = .next t ∧
      (∀ r, reg t r = if r = x then reg s x ||| reg s y else reg s r) ∧
      t.pc = s.pc + 2 ∧ unchangedExcept [.pc, .v] s t) ∧
    (decode (encodeRegReg 0x8 x y 0x2) = .instr (.andReg x y) ∧ ∃ t, exec (.andReg x y) s = .next t ∧
      (∀ r, reg t r = if r = x then reg s x &&& reg s y else reg s r) ∧
      t.pc = s.pc + 2 ∧ unchangedExcept [.pc, .v] s t) ∧
    (decode (encodeRegReg 0x8 x y 0x3) = .instr (.xorReg x y) ∧ ∃ t, exec (.xorReg x y) s = .next t ∧
      (∀ r, reg t r = if r = x then reg s x ^^^ reg s y else reg s r) ∧
      t.pc = s.pc + 2 ∧ unchangedExcept [.pc, .v] s t)

/-- `8xy4`: the sum modulo 256 in Vx, and VF = 1 iff the sum of the values read before exceeds 255; the flag wins when
x = F (42_alu R167). -/
def Obligations.AddSetsCarryLast : Prop :=
  ∀ (s : State) (x y : Reg),
    decode (encodeRegReg 0x8 x y 0x4) = .instr (.addReg x y) ∧
    ∃ t, exec (.addReg x y) s = .next t ∧
      reg t vf = (if (reg s x).toNat + (reg s y).toNat > 255 then 1 else 0) ∧
      (x ≠ vf → (reg t x).toNat = ((reg s x).toNat + (reg s y).toNat) % 256) ∧
      (∀ r, r ≠ x → r ≠ vf → reg t r = reg s r) ∧
      t.pc = pcAfter .next s.pc ∧ unchangedExcept [.pc, .v] s t

/-- `8xy5`: Vx - Vy modulo 256 in Vx, and VF = 1 iff Vx was at least Vy; the flag wins when x = F (42_alu R168). -/
def Obligations.SubtractSetsNotBorrowLast : Prop :=
  ∀ (s : State) (x y : Reg),
    decode (encodeRegReg 0x8 x y 0x5) = .instr (.subReg x y) ∧
    ∃ t, exec (.subReg x y) s = .next t ∧
      reg t vf = (if (reg s x).toNat ≥ (reg s y).toNat then 1 else 0) ∧
      (x ≠ vf → ((reg t x).toNat : Int) = ((reg s x).toNat - (reg s y).toNat : Int) % 256) ∧
      (∀ r, r ≠ x → r ≠ vf → reg t r = reg s r) ∧
      t.pc = pcAfter .next s.pc ∧ unchangedExcept [.pc, .v] s t

/-- `8xy7`: Vy - Vx modulo 256 in Vx, and VF = 1 iff Vy was at least Vx, else 0 (42_alu section 3; the 0 is the spec's
decision D32, log 19); the flag wins when x = F. -/
def Obligations.ReverseSubtractSetsNotBorrowLast : Prop :=
  ∀ (s : State) (x y : Reg),
    decode (encodeRegReg 0x8 x y 0x7) = .instr (.subnReg x y) ∧
    ∃ t, exec (.subnReg x y) s = .next t ∧
      reg t vf = (if (reg s y).toNat ≥ (reg s x).toNat then 1 else 0) ∧
      (x ≠ vf → ((reg t x).toNat : Int) = ((reg s y).toNat - (reg s x).toNat : Int) % 256) ∧
      (∀ r, r ≠ x → r ≠ vf → reg t r = reg s r) ∧
      t.pc = s.pc + 2 ∧ unchangedExcept [.pc, .v] s t

/-- `8xy6` and `8xyE` shift Vx by one place and leave the bit shifted out, taken before the shift, in VF, which is written
last; Vy is neither read nor written (42_alu R169, R171). -/
def Obligations.ShiftsSetTheBitShiftedOut : Prop :=
  ∀ (s : State) (x y : Reg),
    (decode (encodeRegReg 0x8 x y 0x6) = .instr (.shr x y) ∧ ∃ t, exec (.shr x y) s = .next t ∧
      (reg t vf).toNat = (reg s x).toNat % 2 ∧ (x ≠ vf → (reg t x).toNat = (reg s x).toNat / 2) ∧
      (∀ r, r ≠ x → r ≠ vf → reg t r = reg s r) ∧
      t.pc = pcAfter .next s.pc ∧ unchangedExcept [.pc, .v] s t) ∧
    (decode (encodeRegReg 0x8 x y 0xE) = .instr (.shl x y) ∧ ∃ t, exec (.shl x y) s = .next t ∧
      (reg t vf).toNat = (reg s x).toNat / 128 ∧ (x ≠ vf → (reg t x).toNat = (reg s x).toNat * 2 % 256) ∧
      (∀ r, r ≠ x → r ≠ vf → reg t r = reg s r) ∧
      t.pc = pcAfter .next s.pc ∧ unchangedExcept [.pc, .v] s t) ∧
    (∀ y' : Reg, exec (.shr x y') s = exec (.shr x y) s ∧ exec (.shl x y') s = exec (.shl x y) s)

/-- `Cxnn` writes a random byte masked by the immediate: the byte is the free value of this draw, whatever it is, a bit
clear in the immediate is clear in the result, and the next draw is another one (42_alu section 4; the draw counter is the
model's, log 1). -/
def Obligations.RandomByteIsMasked : Prop :=
  ∀ (s : State) (x : Reg) (nn : Byte),
    decode (encodeRegByte 0xC x nn) = .instr (.rnd x nn) ∧
    ∃ t, exec (.rnd x nn) s = .next t ∧ reg t x = Config.randomByte s.draws &&& nn ∧
      (∀ k, nn.getLsbD k = false → (reg t x).getLsbD k = false) ∧ (nn = 0xFF → reg t x = Config.randomByte s.draws) ∧
      (∀ r, r ≠ x → reg t r = reg s r) ∧ t.draws = s.draws + 1 ∧
      t.pc = s.pc + 2 ∧ unchangedExcept [.pc, .v, .draws] s t

/-! ### Index register and memory (43_index_memory) -/

/-- `Annn` writes the address into I; `Fx29` writes five times the whole of Vx (43_index_memory R190, R192). -/
def Obligations.LoadIndexAndFontAddress : Prop :=
  ∀ (s : State) (nnn : Addr12) (x : Reg),
    (decode (encodeAddr 0xA nnn) = .instr (.ldI nnn) ∧ ∃ t, exec (.ldI nnn) s = .next t ∧
      t.i.toNat = nnn.toNat ∧ t.pc = pcAfter .next s.pc ∧ unchangedExcept [.pc, .i] s t) ∧
    (decode (encodeRegByte 0xF x 0x29) = .instr (.ldF x) ∧ ∃ t, exec (.ldF x) s = .next t ∧
      t.i.toNat = (reg s x).toNat * 5 ∧ t.pc = pcAfter .next s.pc ∧ unchangedExcept [.pc, .i] s t)

/-- `Fx1E` adds Vx to I modulo 65536, without a mask to 12 bits, and VF = 1 iff the sum exceeds 0xFFFF, else 0, written
last (43_index_memory section 2; what overflow means and the 0 are the spec's decision D12, log 14). -/
def Obligations.AddToIndexSetsCarryLast : Prop :=
  ∀ (s : State) (x : Reg),
    decode (encodeRegByte 0xF x 0x1E) = .instr (.addI x) ∧
    ∃ t, exec (.addI x) s = .next t ∧
      t.i.toNat = (s.i.toNat + (reg s x).toNat) % 65536 ∧
      reg t vf = (if s.i.toNat + (reg s x).toNat > 0xFFFF then 1 else 0) ∧
      (∀ r, r ≠ vf → reg t r = reg s r) ∧
      t.pc = s.pc + 2 ∧ unchangedExcept [.pc, .i, .v] s t

/-- `Fx33` stores the hundreds, tens and ones of Vx at I, I + 1 and I + 2, each address modulo 4096, and no other byte
(43_index_memory R193).  The clauses about memory are for a memory in its canonical form, an invariant (log 7). -/
def Obligations.BcdStoresThreeDigits : Prop :=
  ∀ (s : State) (x : Reg),
    decode (encodeRegByte 0xF x 0x33) = .instr (.ldB x) ∧
    ∃ t, exec (.ldB x) s = .next t ∧
      (s.mem.wf = true →
        (memRead t (effectiveAddress s 0)).toNat = (reg s x).toNat / 100 ∧
        (memRead t (effectiveAddress s 1)).toNat = (reg s x).toNat / 10 % 10 ∧
        (memRead t (effectiveAddress s 2)).toNat = (reg s x).toNat % 10 ∧
        (∀ a, (∀ k < 3, effectiveAddress s k % 4096 ≠ a % 4096) → memRead t a = memRead s a)) ∧
      t.pc = pcAfter .next s.pc ∧ unchangedExcept [.pc, .mem] s t

/-- `Fx55` stores V0 to Vx at I, I + 1, ..., each address modulo 4096, and no other byte; I does not change
(43_index_memory section 3; I unchanged is the spec's decision D13, log 15).  The clauses about memory are for a memory
in its canonical form, an invariant (log 7). -/
def Obligations.StoreRegistersWritesTheRange : Prop :=
  ∀ (s : State) (x : Reg),
    decode (encodeRegByte 0xF x 0x55) = .instr (.stRegs x) ∧
    ∃ t, exec (.stRegs x) s = .next t ∧
      (s.mem.wf = true →
        (∀ k : Reg, k ≤ x → memRead t (effectiveAddress s k.val) = reg s k) ∧
        (∀ a, (∀ k : Reg, k ≤ x → effectiveAddress s k.val % 4096 ≠ a % 4096) → memRead t a = memRead s a)) ∧
      t.pc = s.pc + 2 ∧ unchangedExcept [.pc, .mem] s t

/-- `Fx65` loads V0 to Vx from I, I + 1, ..., each address modulo 4096, and leaves the registers above Vx; I does not change
(43_index_memory section 3; I unchanged is the spec's decision D13, log 15). -/
def Obligations.LoadRegistersReadsTheRange : Prop :=
  ∀ (s : State) (x : Reg),
    decode (encodeRegByte 0xF x 0x65) = .instr (.ldRegs x) ∧
    ∃ t, exec (.ldRegs x) s = .next t ∧
      (∀ r : Reg, reg t r = if r ≤ x then memRead s (effectiveAddress s r.val) else reg s r) ∧
      t.pc = s.pc + 2 ∧ unchangedExcept [.pc, .v] s t

/-- The bytes that `Fx55` stored are what the next fetch reads, at PC and at PC + 1: no cache stands between
(20_memory section 5; the spec's decision D26, log 10). -/
def Obligations.StoredBytesAreFetched : Prop :=
  ∀ (s t : State) (x k : Reg), s.mem.wf = true → exec (.stRegs x) s = .next t → k ≤ x →
    (t.pc.toNat % 4096 = effectiveAddress s k.val % 4096 → highByte (fetch t) = reg s k) ∧
    ((t.pc.toNat + 1) % 4096 = effectiveAddress s k.val % 4096 → lowByte (fetch t) = reg s k)

/-- Memories in canonical form that read alike at every address are equal as data (the model's form of memory, log 7). -/
def Obligations.MemoriesThatReadAlikeAreEqual : Prop :=
  ∀ m₁ m₂ : Memory, m₁.wf = true → m₂.wf = true → (∀ a, cellsRead m₁ a = cellsRead m₂ a) → m₁ = m₂

/-! ### Display (44_display) -/

/-- `00E0` makes every pixel false and writes no flag (44_display R211). -/
def Obligations.ClearScreenDarkensEveryPixel : Prop :=
  ∀ s : State,
    decode 0x00E0 = .instr .cls ∧
    ∃ t, exec .cls s = .next t ∧ (∀ x y, pixel t x y = false) ∧
      t.pc = pcAfter .next s.pc ∧ unchangedExcept [.pc, .fb] s t

/-- `Dxyn` flips exactly the pixels its sprite covers, the n bytes at I drawn from (Vx mod 64, Vy mod 32), and VF = 1 iff one
of those was lit, else 0, written last (44_display section 2; bit order and n = 0 are the spec's decisions D15 and D16,
log 16). -/
def Obligations.DrawFlipsTheCoveredPixels : Prop :=
  ∀ (s : State) (x y : Reg) (n : Nibble),
    decode (encodeRegReg 0xD x y n) = .instr (.drw x y n) ∧
    ∃ (t : State) (rows : List Byte), exec (.drw x y n) s = .next t ∧
      rows.length = n.toNat ∧ (∀ (r : Nat) (h : r < rows.length), rows[r] = memRead s (effectiveAddress s r)) ∧
      (∀ px py,
        (spriteCovers ((reg s x).toNat % 64) ((reg s y).toNat % 32) rows px py → pixel t px py = !pixel s px py) ∧
        (¬ spriteCovers ((reg s x).toNat % 64) ((reg s y).toNat % 32) rows px py → pixel t px py = pixel s px py)) ∧
      (reg t vf = 1 ∨ reg t vf = 0) ∧
      (reg t vf = 1 ↔
        ∃ px py, spriteCovers ((reg s x).toNat % 64) ((reg s y).toNat % 32) rows px py ∧ pixel s px py = true) ∧
      (∀ r, r ≠ vf → reg t r = reg s r) ∧
      t.pc = s.pc + 2 ∧ unchangedExcept [.pc, .fb, .v] s t

/-- The laws of the blit for every sprite `Dxyn` can draw (44_display section 1, the spec's own inference): two draws
restore the framebuffer; the second collides iff the first turned a pixel on; on a clear region the first does not
collide and the second clears every pixel the first set. -/
def Obligations.DrawingTwiceRestoresTheDisplay : Prop :=
  ∀ (fb : Framebuffer) (x y : Nat) (rows : List Byte), rows.length ≤ 15 →
    let first := blitSprite fb x y rows
    let second := blitSprite first.1 x y rows
    second.1 = fb ∧
    (second.2 = true ↔ ∃ px py, fbGet fb px py = false ∧ fbGet first.1 px py = true) ∧
    ((∀ px py, spriteCovers x y rows px py → fbGet fb px py = false) →
      first.2 = false ∧ ∀ px py, spriteCovers x y rows px py → fbGet first.1 px py = true ∧ fbGet second.1 px py = false)

/-! ### Keypad and timers (45_timers_keypad) -/

/-- `Ex9E` and `ExA1` skip by the state of key Vx; for Vx above 15 they skip or not by one fresh free draw, with no fault
(45_timers_keypad sections 1 and 2; the draw is the spec's decision D17, its counter the model's, log 2). -/
def Obligations.KeySkipsReadTheKey : Prop :=
  ∀ (s : State) (x : Reg),
    decode (encodeRegByte 0xE x 0x9E) = .instr (.skp x) ∧ decode (encodeRegByte 0xE x 0xA1) = .instr (.sknp x) ∧
    (∀ h : (reg s x).toNat < 16,
      exec (.skp x) s = .next { s with pc := pcAfter (.skip s.key[(reg s x).toNat]) s.pc } ∧
      exec (.sknp x) s = .next { s with pc := pcAfter (.skip !s.key[(reg s x).toNat]) s.pc }) ∧
    (16 ≤ (reg s x).toNat → ∃ d : Bool, d = Config.keyDraw s.draws ∧
      exec (.skp x) s = .next { s with pc := pcAfter (.skip d) s.pc, draws := s.draws + 1 } ∧
      exec (.sknp x) s = .next { s with pc := pcAfter (.skip !d) s.pc, draws := s.draws + 1 })

/-- `Fx07`, `Fx15`, `Fx18` move a byte between Vx and a timer; in a whole cycle `Fx07` reads DT after the tick, and the
value that `Fx15` or `Fx18` writes is not ticked in that cycle (45_timers_keypad section 3, whose order in the cycle is the
spec's own inference from 40_cycle section 1). -/
def Obligations.TimerTransfersMoveBytes : Prop :=
  ∀ (s : State) (x : Reg),
    (decode (encodeRegByte 0xF x 0x07) = .instr (.ldVxDt x) ∧ ∃ t, exec (.ldVxDt x) s = .next t ∧
      (∀ r, reg t r = if r = x then s.dt else reg s r) ∧ t.pc = s.pc + 2 ∧ unchangedExcept [.pc, .v] s t) ∧
    (decode (encodeRegByte 0xF x 0x15) = .instr (.ldDtVx x) ∧ ∃ t, exec (.ldDtVx x) s = .next t ∧
      t.dt = reg s x ∧ t.pc = s.pc + 2 ∧ unchangedExcept [.pc, .dt] s t) ∧
    (decode (encodeRegByte 0xF x 0x18) = .instr (.ldStVx x) ∧ ∃ t, exec (.ldStVx x) s = .next t ∧
      t.st = reg s x ∧ t.pc = s.pc + 2 ∧ unchangedExcept [.pc, .st] s t) ∧
    (s.fault = none → s.waiting = false →
      (decode (fetch s) = .instr (.ldVxDt x) → ∃ t, step s = .next t ∧ reg t x = (timerTick s).dt) ∧
      (decode (fetch s) = .instr (.ldDtVx x) → ∃ t, step s = .next t ∧ t.dt = reg s x) ∧
      (decode (fetch s) = .instr (.ldStVx x) → ∃ t, step s = .next t ∧ t.st = reg s x))

/-- `Fx0A` enters the wait, records its destination and advances PC at once; Vx is not written (45_timers_keypad section 4;
when PC advances is the spec's decision D18, log 17). -/
def Obligations.WaitForKeySuspends : Prop :=
  ∀ (s : State) (x : Reg),
    decode (encodeRegByte 0xF x 0x0A) = .instr (.ldVxK x) ∧
    ∃ t, exec (.ldVxK x) s = .next t ∧ t.waiting = true ∧ t.waitDest = x ∧ t.pc = s.pc + 2 ∧
      unchangedExcept [.pc, .waiting, .waitDest] s t

/-! ### Reset and the host -/

/-- `reset()` leaves every element at its reset value, from any state, faulted or waiting; the model's draw counter goes on
(70_reset_and_hazards section 1, 10_state section 9; the zeros are the spec's decisions D5, D7, D8 and D9, log 9; the
counter is the model's, log 3).  `State.reset` has the same values. -/
def Obligations.ResetLeavesEveryElementAtItsValue : Prop :=
  ∀ s : State,
    (∀ r, reg (hostReset s) r = 0) ∧ (hostReset s).i = 0 ∧ (hostReset s).pc = 0x200 ∧ (hostReset s).dt = 0 ∧
    (hostReset s).st = 0 ∧ (∀ k : Fin 16, (hostReset s).stack[k.val] = 0) ∧ (hostReset s).sp.val = 0 ∧
    (∀ a, memRead (hostReset s) a = 0) ∧ (∀ x y, pixel (hostReset s) x y = false) ∧
    (∀ k : Fin 16, (hostReset s).key[k.val] = false) ∧ (hostReset s).waiting = false ∧
    (hostReset s).waitDest = 0 ∧ (hostReset s).cyc = 0 ∧ (hostReset s).fault = none ∧
    (hostReset s).draws = s.draws ∧ unchangedExcept [.draws] State.reset (hostReset s)

/-- After reset PC is 0x200 and the machine is running, not waiting, not faulted; the first cycle after the host has loaded
an image there fetches its first two bytes, and runs the instruction they are (70_reset_and_hazards section 1; the load is
20_memory section 3, and an image that runs past 0xFFF wraps to 0x000 by the spec's decision D27, log 20; not faulted is
the spec's decision D9, log 9).  First bytes that are an unknown word are left to `UnknownWordIsReportedAndSkipped`. -/
def Obligations.FirstCycleRunsTheWordAtTheEntryPoint : Prop :=
  ∀ s : State,
    (hostReset s).pc = 0x200 ∧ (hostReset s).waiting = false ∧ (hostReset s).fault = none ∧
    ∀ (b₀ b₁ : Byte) (rest : List Byte), rest.length ≤ 4094 →
      let m := hostLoad (hostReset s) 0x200 (b₀ :: b₁ :: rest)
      fetch m = wordOfBytes b₀ b₁ ∧ (∀ i, decodeBytes b₀ b₁ = .instr i → step m = exec i (timerTick m))

/-- `load` copies every byte to its address modulo 4096, the later byte winning where a long image wraps onto itself, leaves
every other byte, and changes nothing but memory (20_memory section 3; the spec's decision D27, log 20), for a memory in
its canonical form, an invariant (log 7). -/
def Obligations.HostLoadCopiesBytes : Prop :=
  ∀ (s : State) (base : Word) (bytes : List Byte),
    unchangedExcept [.mem] s (hostLoad s base bytes) ∧
    (s.mem.wf = true →
      (∀ (k : Nat) (h : k < bytes.length),
        (∀ j, k < j → j < bytes.length → (base.toNat + j) % 4096 ≠ (base.toNat + k) % 4096) →
        memRead (hostLoad s base bytes) (base.toNat + k) = bytes[k]) ∧
      (∀ a, (∀ k < bytes.length, (base.toNat + k) % 4096 ≠ a % 4096) →
        memRead (hostLoad s base bytes) a = memRead s a))

/-- `set_key` writes one key and nothing else (10_state section 10). -/
def Obligations.HostSetKeyChangesOneKey : Prop :=
  ∀ (s : State) (k : Fin 16) (down : Bool),
    (∀ j : Fin 16, (hostSetKey s k down).key[j.val] = if j = k then down else s.key[j.val]) ∧
    unchangedExcept [.key] s (hostSetKey s k down)

/-! ### What no instruction can learn -/

/-- No instruction reads ST or CYC (10_state sections 4 and 8): two states that differ only there have next states that
differ only there, and after `Fx18` not even in ST.  This is about `exec`, an instruction's own effect; the timer tick of
the cycle reads both.  The two states stand for one machine, with the same free draws (log 1, log 24). -/
def Obligations.NoInstructionReadsSoundTimerOrCycleCounter : Prop :=
  ∀ (i : Instr) (s t : State) (c : Nat) (b : Byte), exec i s = .next t →
    exec i { s with cyc := c } = .next { t with cyc := c } ∧
    ((∀ x, i ≠ .ldStVx x) → exec i { s with st := b } = .next { t with st := b }) ∧
    ((∃ x, i = .ldStVx x) → exec i { s with st := b } = .next t)

/-- No step reads an entry of the stack at or above SP (10_state section 5, the sentence that makes the vacated entry
unobservable; decision D22, log 18): two states that differ only there go on agreeing on everything else.  The two states
stand for one machine, with the same free draws and CLOCK_HZ (log 1, log 4, log 24). -/
def Obligations.EntriesAboveTheTopAreNeverRead : Prop :=
  ∀ s₁ s₂ t₁ : State, agreeBelowTop s₁ s₂ → step s₁ = .next t₁ →
    ∃ t₂, step s₂ = .next t₂ ∧ agreeBelowTop t₁ t₂
end

