-- ==== Sys2Proof/Laws/Decode.lean ====
section
/-!
SUPPORT. The fields of an encoded word, and the fields a word is put together from.
-/

namespace Sys2Proof

/-! ### Bits -/

theorem getLsbD_encodeAddr (i : Nibble) (nnn : Addr12) (k : Nat) :
    (encodeAddr i nnn).getLsbD k = if k < 12 then nnn.getLsbD k else i.getLsbD (k - 12) :=
  BitVec.getLsbD_append

theorem getLsbD_encodeRegByte (i : Nibble) (x : Reg) (nn : Byte) (k : Nat) :
    (encodeRegByte i x nn).getLsbD k =
      if k < 8 then nn.getLsbD k
      else if k - 8 < 4 then (regBits x).getLsbD (k - 8) else i.getLsbD (k - 8 - 4) :=
  Eq.trans BitVec.getLsbD_append (by rw [BitVec.getLsbD_append])

theorem getLsbD_encodeRegReg (i : Nibble) (x y : Reg) (n : Nibble) (k : Nat) :
    (encodeRegReg i x y n).getLsbD k =
      if k < 4 then n.getLsbD k
      else if k - 4 < 4 then (regBits y).getLsbD (k - 4)
      else if k - 4 - 4 < 4 then (regBits x).getLsbD (k - 4 - 4) else i.getLsbD (k - 4 - 4 - 4) :=
  Eq.trans BitVec.getLsbD_append (by rw [BitVec.getLsbD_append, BitVec.getLsbD_append])

theorem getLsbD_wordOfBytes (hi lo : Byte) (k : Nat) :
    (wordOfBytes hi lo).getLsbD k = if k < 8 then lo.getLsbD k else hi.getLsbD (k - 8) :=
  BitVec.getLsbD_append

theorem getLsbD_fieldI (w : Word) (k : Nat) : (fieldI w).getLsbD k = (decide (k < 4) && w.getLsbD (12 + k)) :=
  BitVec.getLsbD_extractLsb' ..

theorem getLsbD_fieldX (w : Word) (k : Nat) :
    (regBits (fieldX w)).getLsbD k = (decide (k < 4) && w.getLsbD (8 + k)) :=
  BitVec.getLsbD_extractLsb' ..

theorem getLsbD_fieldY (w : Word) (k : Nat) :
    (regBits (fieldY w)).getLsbD k = (decide (k < 4) && w.getLsbD (4 + k)) :=
  BitVec.getLsbD_extractLsb' ..

theorem getLsbD_fieldN (w : Word) (k : Nat) : (fieldN w).getLsbD k = (decide (k < 4) && w.getLsbD (0 + k)) :=
  BitVec.getLsbD_extractLsb' ..

theorem getLsbD_fieldNn (w : Word) (k : Nat) : (fieldNn w).getLsbD k = (decide (k < 8) && w.getLsbD (0 + k)) :=
  BitVec.getLsbD_extractLsb' ..

theorem getLsbD_fieldNnn (w : Word) (k : Nat) : (fieldNnn w).getLsbD k = (decide (k < 12) && w.getLsbD (0 + k)) :=
  BitVec.getLsbD_extractLsb' ..

/-- A register number is its four bits. -/
theorem regBits_injective {x y : Reg} (h : regBits x = regBits y) : x = y := congrArg BitVec.toFin h

/-! ### The fields of an encoded word -/

@[simp] theorem fieldI_encodeAddr (i : Nibble) (nnn : Addr12) : fieldI (encodeAddr i nnn) = i := by
  refine BitVec.eq_of_getLsbD_eq fun k hk => ?_
  rw [getLsbD_fieldI, getLsbD_encodeAddr, if_neg (by omega), show 12 + k - 12 = k by omega]
  simp [hk]

@[simp] theorem fieldNnn_encodeAddr (i : Nibble) (nnn : Addr12) : fieldNnn (encodeAddr i nnn) = nnn := by
  refine BitVec.eq_of_getLsbD_eq fun k hk => ?_
  rw [getLsbD_fieldNnn, getLsbD_encodeAddr, if_pos (by omega), Nat.zero_add]
  simp [hk]

@[simp] theorem fieldI_encodeRegByte (i : Nibble) (x : Reg) (nn : Byte) : fieldI (encodeRegByte i x nn) = i := by
  refine BitVec.eq_of_getLsbD_eq fun k hk => ?_
  rw [getLsbD_fieldI, getLsbD_encodeRegByte, if_neg (by omega), if_neg (by omega),
    show 12 + k - 8 - 4 = k by omega]
  simp [hk]

@[simp] theorem fieldX_encodeRegByte (i : Nibble) (x : Reg) (nn : Byte) : fieldX (encodeRegByte i x nn) = x := by
  refine regBits_injective (BitVec.eq_of_getLsbD_eq fun k hk => ?_)
  rw [getLsbD_fieldX, getLsbD_encodeRegByte, if_neg (by omega), if_pos (by omega), show 8 + k - 8 = k by omega]
  simp [hk]

@[simp] theorem fieldNn_encodeRegByte (i : Nibble) (x : Reg) (nn : Byte) : fieldNn (encodeRegByte i x nn) = nn := by
  refine BitVec.eq_of_getLsbD_eq fun k hk => ?_
  rw [getLsbD_fieldNn, getLsbD_encodeRegByte, if_pos (by omega), Nat.zero_add]
  simp [hk]

@[simp] theorem fieldI_encodeRegReg (i : Nibble) (x y : Reg) (n : Nibble) : fieldI (encodeRegReg i x y n) = i := by
  refine BitVec.eq_of_getLsbD_eq fun k hk => ?_
  rw [getLsbD_fieldI, getLsbD_encodeRegReg, if_neg (by omega), if_neg (by omega), if_neg (by omega),
    show 12 + k - 4 - 4 - 4 = k by omega]
  simp [hk]

@[simp] theorem fieldX_encodeRegReg (i : Nibble) (x y : Reg) (n : Nibble) : fieldX (encodeRegReg i x y n) = x := by
  refine regBits_injective (BitVec.eq_of_getLsbD_eq fun k hk => ?_)
  rw [getLsbD_fieldX, getLsbD_encodeRegReg, if_neg (by omega), if_neg (by omega), if_pos (by omega),
    show 8 + k - 4 - 4 = k by omega]
  simp [hk]

@[simp] theorem fieldY_encodeRegReg (i : Nibble) (x y : Reg) (n : Nibble) : fieldY (encodeRegReg i x y n) = y := by
  refine regBits_injective (BitVec.eq_of_getLsbD_eq fun k hk => ?_)
  rw [getLsbD_fieldY, getLsbD_encodeRegReg, if_neg (by omega), if_pos (by omega), show 4 + k - 4 = k by omega]
  simp [hk]

@[simp] theorem fieldN_encodeRegReg (i : Nibble) (x y : Reg) (n : Nibble) : fieldN (encodeRegReg i x y n) = n := by
  refine BitVec.eq_of_getLsbD_eq fun k hk => ?_
  rw [getLsbD_fieldN, getLsbD_encodeRegReg, if_pos (by omega), Nat.zero_add]
  simp [hk]

/-! ### A word from its fields -/

theorem encodeAddr_fields (w : Word) : encodeAddr (fieldI w) (fieldNnn w) = w := by
  refine BitVec.eq_of_getLsbD_eq fun k hk => ?_
  rw [getLsbD_encodeAddr, getLsbD_fieldI, getLsbD_fieldNnn]
  split
  · simp_all
  · rw [show 12 + (k - 12) = k by omega]
    simp only [show k - 12 < 4 by omega, decide_true, Bool.true_and]

theorem encodeRegByte_fields (w : Word) : encodeRegByte (fieldI w) (fieldX w) (fieldNn w) = w := by
  refine BitVec.eq_of_getLsbD_eq fun k hk => ?_
  rw [getLsbD_encodeRegByte, getLsbD_fieldI, getLsbD_fieldX, getLsbD_fieldNn]
  split
  · simp_all
  · split
    · rw [show 8 + (k - 8) = k by omega]
      simp_all
    · rw [show 12 + (k - 8 - 4) = k by omega]
      simp only [show k - 8 - 4 < 4 by omega, decide_true, Bool.true_and]

theorem encodeRegReg_fields (w : Word) : encodeRegReg (fieldI w) (fieldX w) (fieldY w) (fieldN w) = w := by
  refine BitVec.eq_of_getLsbD_eq fun k hk => ?_
  rw [getLsbD_encodeRegReg, getLsbD_fieldI, getLsbD_fieldX, getLsbD_fieldY, getLsbD_fieldN]
  split
  · simp_all
  · split
    · rw [show 4 + (k - 4) = k by omega]
      simp_all
    · split
      · rw [show 8 + (k - 4 - 4) = k by omega]
        simp_all
      · rw [show 12 + (k - 4 - 4 - 4) = k by omega]
        simp only [show k - 4 - 4 - 4 < 4 by omega, decide_true, Bool.true_and]

/-! ### Masks of whole digits (30_encoding R93) -/

theorem and_encodeAddr (i : Nibble) (nnn : Addr12) : encodeAddr i nnn &&& 0xF000#16 = encodeAddr i 0#12 := by
  refine BitVec.eq_of_getLsbD_eq fun k hk => ?_
  rw [BitVec.getLsbD_and, getLsbD_encodeAddr, getLsbD_encodeAddr]
  interval_cases k <;> simp

theorem and_encodeRegByte (i : Nibble) (x : Reg) (nn : Byte) :
    encodeRegByte i x nn &&& 0xF000#16 = encodeRegByte i 0 0#8 := by
  refine BitVec.eq_of_getLsbD_eq fun k hk => ?_
  rw [BitVec.getLsbD_and, getLsbD_encodeRegByte, getLsbD_encodeRegByte]
  interval_cases k <;> simp <;> rfl

theorem and_encodeRegByte_low (i : Nibble) (x : Reg) (nn : Byte) :
    encodeRegByte i x nn &&& 0xF0FF#16 = encodeRegByte i 0 nn := by
  refine BitVec.eq_of_getLsbD_eq fun k hk => ?_
  rw [BitVec.getLsbD_and, getLsbD_encodeRegByte, getLsbD_encodeRegByte]
  interval_cases k <;> simp <;> rfl

theorem and_encodeRegReg (i : Nibble) (x y : Reg) (n : Nibble) :
    encodeRegReg i x y n &&& 0xF000#16 = encodeRegReg i 0 0 0#4 := by
  refine BitVec.eq_of_getLsbD_eq fun k hk => ?_
  rw [BitVec.getLsbD_and, getLsbD_encodeRegReg, getLsbD_encodeRegReg]
  interval_cases k <;> simp <;> rfl

theorem and_encodeRegReg_low (i : Nibble) (x y : Reg) (n : Nibble) :
    encodeRegReg i x y n &&& 0xF00F#16 = encodeRegReg i 0 0 n := by
  refine BitVec.eq_of_getLsbD_eq fun k hk => ?_
  rw [BitVec.getLsbD_and, getLsbD_encodeRegReg, getLsbD_encodeRegReg]
  interval_cases k <;> simp <;> rfl

/-! ### The two bytes of a word (20_memory R62) -/

theorem wordOfBytes_bytes (w : Word) : wordOfBytes (highByte w) (lowByte w) = w := by
  refine BitVec.eq_of_getLsbD_eq fun k hk => ?_
  rw [getLsbD_wordOfBytes, highByte, lowByte, BitVec.getLsbD_extractLsb', BitVec.getLsbD_extractLsb']
  split
  · simp_all
  · rw [show 8 + (k - 8) = k by omega]
    simp only [show k - 8 < 8 by omega, decide_true, Bool.true_and]

@[simp] theorem highByte_wordOfBytes (hi lo : Byte) : highByte (wordOfBytes hi lo) = hi := by
  refine BitVec.eq_of_getLsbD_eq fun k hk => ?_
  simp [highByte, getLsbD_wordOfBytes, hk]

@[simp] theorem lowByte_wordOfBytes (hi lo : Byte) : lowByte (wordOfBytes hi lo) = lo := by
  refine BitVec.eq_of_getLsbD_eq fun k hk => ?_
  simp [lowByte, getLsbD_wordOfBytes, hk]

end Sys2Proof
end

