-- ==== Sys2Proof/Laws/State.lean ====
section
/-!
SUPPORT. One lemma per field of the state per named update, and the reads of registers, memory and pixels across the
updates that leave them alone; so that no later proof unfolds a record update.
-/

namespace Sys2Proof.Machine

/-! ### `setReg` -/

@[simp] theorem setReg_v (s : State) (x : Reg) (b : Byte) : (setReg s x b).v = s.v.set x.val b := rfl
@[simp] theorem setReg_i (s : State) (x : Reg) (b : Byte) : (setReg s x b).i = s.i := rfl
@[simp] theorem setReg_pc (s : State) (x : Reg) (b : Byte) : (setReg s x b).pc = s.pc := rfl
@[simp] theorem setReg_dt (s : State) (x : Reg) (b : Byte) : (setReg s x b).dt = s.dt := rfl
@[simp] theorem setReg_st (s : State) (x : Reg) (b : Byte) : (setReg s x b).st = s.st := rfl
@[simp] theorem setReg_stack (s : State) (x : Reg) (b : Byte) : (setReg s x b).stack = s.stack := rfl
@[simp] theorem setReg_sp (s : State) (x : Reg) (b : Byte) : (setReg s x b).sp = s.sp := rfl
@[simp] theorem setReg_fb (s : State) (x : Reg) (b : Byte) : (setReg s x b).fb = s.fb := rfl
@[simp] theorem setReg_mem (s : State) (x : Reg) (b : Byte) : (setReg s x b).mem = s.mem := rfl
@[simp] theorem setReg_key (s : State) (x : Reg) (b : Byte) : (setReg s x b).key = s.key := rfl
@[simp] theorem setReg_waiting (s : State) (x : Reg) (b : Byte) : (setReg s x b).waiting = s.waiting := rfl
@[simp] theorem setReg_waitDest (s : State) (x : Reg) (b : Byte) : (setReg s x b).waitDest = s.waitDest := rfl
@[simp] theorem setReg_cyc (s : State) (x : Reg) (b : Byte) : (setReg s x b).cyc = s.cyc := rfl
@[simp] theorem setReg_fault (s : State) (x : Reg) (b : Byte) : (setReg s x b).fault = s.fault := rfl
@[simp] theorem setReg_draws (s : State) (x : Reg) (b : Byte) : (setReg s x b).draws = s.draws := rfl
@[simp] theorem memRead_setReg (s : State) (x : Reg) (b : Byte) (c : Nat) : memRead (setReg s x b) c = memRead s c := rfl
@[simp] theorem pixel_setReg (s : State) (x : Reg) (b : Byte) (px py : Nat) : pixel (setReg s x b) px py = pixel s px py := rfl
@[simp] theorem fetch_setReg (s : State) (x : Reg) (b : Byte) : fetch (setReg s x b) = fetch s := rfl
@[simp] theorem effectiveAddress_setReg (s : State) (x : Reg) (b : Byte) (j : Nat) : effectiveAddress (setReg s x b) j = effectiveAddress s j := rfl

/-! ### `setIndex` -/

@[simp] theorem setIndex_v (s : State) (a : Word) : (setIndex s a).v = s.v := rfl
@[simp] theorem setIndex_i (s : State) (a : Word) : (setIndex s a).i = a := rfl
@[simp] theorem setIndex_pc (s : State) (a : Word) : (setIndex s a).pc = s.pc := rfl
@[simp] theorem setIndex_dt (s : State) (a : Word) : (setIndex s a).dt = s.dt := rfl
@[simp] theorem setIndex_st (s : State) (a : Word) : (setIndex s a).st = s.st := rfl
@[simp] theorem setIndex_stack (s : State) (a : Word) : (setIndex s a).stack = s.stack := rfl
@[simp] theorem setIndex_sp (s : State) (a : Word) : (setIndex s a).sp = s.sp := rfl
@[simp] theorem setIndex_fb (s : State) (a : Word) : (setIndex s a).fb = s.fb := rfl
@[simp] theorem setIndex_mem (s : State) (a : Word) : (setIndex s a).mem = s.mem := rfl
@[simp] theorem setIndex_key (s : State) (a : Word) : (setIndex s a).key = s.key := rfl
@[simp] theorem setIndex_waiting (s : State) (a : Word) : (setIndex s a).waiting = s.waiting := rfl
@[simp] theorem setIndex_waitDest (s : State) (a : Word) : (setIndex s a).waitDest = s.waitDest := rfl
@[simp] theorem setIndex_cyc (s : State) (a : Word) : (setIndex s a).cyc = s.cyc := rfl
@[simp] theorem setIndex_fault (s : State) (a : Word) : (setIndex s a).fault = s.fault := rfl
@[simp] theorem setIndex_draws (s : State) (a : Word) : (setIndex s a).draws = s.draws := rfl
@[simp] theorem reg_setIndex (s : State) (a : Word) (r : Reg) : reg (setIndex s a) r = reg s r := rfl
@[simp] theorem memRead_setIndex (s : State) (a : Word) (c : Nat) : memRead (setIndex s a) c = memRead s c := rfl
@[simp] theorem pixel_setIndex (s : State) (a : Word) (px py : Nat) : pixel (setIndex s a) px py = pixel s px py := rfl
@[simp] theorem fetch_setIndex (s : State) (a : Word) : fetch (setIndex s a) = fetch s := rfl

/-! ### `setDelay` -/

@[simp] theorem setDelay_v (s : State) (b : Byte) : (setDelay s b).v = s.v := rfl
@[simp] theorem setDelay_i (s : State) (b : Byte) : (setDelay s b).i = s.i := rfl
@[simp] theorem setDelay_pc (s : State) (b : Byte) : (setDelay s b).pc = s.pc := rfl
@[simp] theorem setDelay_dt (s : State) (b : Byte) : (setDelay s b).dt = b := rfl
@[simp] theorem setDelay_st (s : State) (b : Byte) : (setDelay s b).st = s.st := rfl
@[simp] theorem setDelay_stack (s : State) (b : Byte) : (setDelay s b).stack = s.stack := rfl
@[simp] theorem setDelay_sp (s : State) (b : Byte) : (setDelay s b).sp = s.sp := rfl
@[simp] theorem setDelay_fb (s : State) (b : Byte) : (setDelay s b).fb = s.fb := rfl
@[simp] theorem setDelay_mem (s : State) (b : Byte) : (setDelay s b).mem = s.mem := rfl
@[simp] theorem setDelay_key (s : State) (b : Byte) : (setDelay s b).key = s.key := rfl
@[simp] theorem setDelay_waiting (s : State) (b : Byte) : (setDelay s b).waiting = s.waiting := rfl
@[simp] theorem setDelay_waitDest (s : State) (b : Byte) : (setDelay s b).waitDest = s.waitDest := rfl
@[simp] theorem setDelay_cyc (s : State) (b : Byte) : (setDelay s b).cyc = s.cyc := rfl
@[simp] theorem setDelay_fault (s : State) (b : Byte) : (setDelay s b).fault = s.fault := rfl
@[simp] theorem setDelay_draws (s : State) (b : Byte) : (setDelay s b).draws = s.draws := rfl
@[simp] theorem reg_setDelay (s : State) (b : Byte) (r : Reg) : reg (setDelay s b) r = reg s r := rfl
@[simp] theorem memRead_setDelay (s : State) (b : Byte) (c : Nat) : memRead (setDelay s b) c = memRead s c := rfl
@[simp] theorem pixel_setDelay (s : State) (b : Byte) (px py : Nat) : pixel (setDelay s b) px py = pixel s px py := rfl
@[simp] theorem fetch_setDelay (s : State) (b : Byte) : fetch (setDelay s b) = fetch s := rfl
@[simp] theorem effectiveAddress_setDelay (s : State) (b : Byte) (j : Nat) : effectiveAddress (setDelay s b) j = effectiveAddress s j := rfl

/-! ### `setSound` -/

@[simp] theorem setSound_v (s : State) (b : Byte) : (setSound s b).v = s.v := rfl
@[simp] theorem setSound_i (s : State) (b : Byte) : (setSound s b).i = s.i := rfl
@[simp] theorem setSound_pc (s : State) (b : Byte) : (setSound s b).pc = s.pc := rfl
@[simp] theorem setSound_dt (s : State) (b : Byte) : (setSound s b).dt = s.dt := rfl
@[simp] theorem setSound_st (s : State) (b : Byte) : (setSound s b).st = b := rfl
@[simp] theorem setSound_stack (s : State) (b : Byte) : (setSound s b).stack = s.stack := rfl
@[simp] theorem setSound_sp (s : State) (b : Byte) : (setSound s b).sp = s.sp := rfl
@[simp] theorem setSound_fb (s : State) (b : Byte) : (setSound s b).fb = s.fb := rfl
@[simp] theorem setSound_mem (s : State) (b : Byte) : (setSound s b).mem = s.mem := rfl
@[simp] theorem setSound_key (s : State) (b : Byte) : (setSound s b).key = s.key := rfl
@[simp] theorem setSound_waiting (s : State) (b : Byte) : (setSound s b).waiting = s.waiting := rfl
@[simp] theorem setSound_waitDest (s : State) (b : Byte) : (setSound s b).waitDest = s.waitDest := rfl
@[simp] theorem setSound_cyc (s : State) (b : Byte) : (setSound s b).cyc = s.cyc := rfl
@[simp] theorem setSound_fault (s : State) (b : Byte) : (setSound s b).fault = s.fault := rfl
@[simp] theorem setSound_draws (s : State) (b : Byte) : (setSound s b).draws = s.draws := rfl
@[simp] theorem reg_setSound (s : State) (b : Byte) (r : Reg) : reg (setSound s b) r = reg s r := rfl
@[simp] theorem memRead_setSound (s : State) (b : Byte) (c : Nat) : memRead (setSound s b) c = memRead s c := rfl
@[simp] theorem pixel_setSound (s : State) (b : Byte) (px py : Nat) : pixel (setSound s b) px py = pixel s px py := rfl
@[simp] theorem fetch_setSound (s : State) (b : Byte) : fetch (setSound s b) = fetch s := rfl
@[simp] theorem effectiveAddress_setSound (s : State) (b : Byte) (j : Nat) : effectiveAddress (setSound s b) j = effectiveAddress s j := rfl

/-! ### `memWrite` -/

@[simp] theorem memWrite_v (s : State) (a : Nat) (b : Byte) : (memWrite s a b).v = s.v := rfl
@[simp] theorem memWrite_i (s : State) (a : Nat) (b : Byte) : (memWrite s a b).i = s.i := rfl
@[simp] theorem memWrite_pc (s : State) (a : Nat) (b : Byte) : (memWrite s a b).pc = s.pc := rfl
@[simp] theorem memWrite_dt (s : State) (a : Nat) (b : Byte) : (memWrite s a b).dt = s.dt := rfl
@[simp] theorem memWrite_st (s : State) (a : Nat) (b : Byte) : (memWrite s a b).st = s.st := rfl
@[simp] theorem memWrite_stack (s : State) (a : Nat) (b : Byte) : (memWrite s a b).stack = s.stack := rfl
@[simp] theorem memWrite_sp (s : State) (a : Nat) (b : Byte) : (memWrite s a b).sp = s.sp := rfl
@[simp] theorem memWrite_fb (s : State) (a : Nat) (b : Byte) : (memWrite s a b).fb = s.fb := rfl
@[simp] theorem memWrite_mem (s : State) (a : Nat) (b : Byte) : (memWrite s a b).mem = cellsWrite s.mem (a % 4096) b := rfl
@[simp] theorem memWrite_key (s : State) (a : Nat) (b : Byte) : (memWrite s a b).key = s.key := rfl
@[simp] theorem memWrite_waiting (s : State) (a : Nat) (b : Byte) : (memWrite s a b).waiting = s.waiting := rfl
@[simp] theorem memWrite_waitDest (s : State) (a : Nat) (b : Byte) : (memWrite s a b).waitDest = s.waitDest := rfl
@[simp] theorem memWrite_cyc (s : State) (a : Nat) (b : Byte) : (memWrite s a b).cyc = s.cyc := rfl
@[simp] theorem memWrite_fault (s : State) (a : Nat) (b : Byte) : (memWrite s a b).fault = s.fault := rfl
@[simp] theorem memWrite_draws (s : State) (a : Nat) (b : Byte) : (memWrite s a b).draws = s.draws := rfl
@[simp] theorem reg_memWrite (s : State) (a : Nat) (b : Byte) (r : Reg) : reg (memWrite s a b) r = reg s r := rfl
@[simp] theorem pixel_memWrite (s : State) (a : Nat) (b : Byte) (px py : Nat) : pixel (memWrite s a b) px py = pixel s px py := rfl
@[simp] theorem effectiveAddress_memWrite (s : State) (a : Nat) (b : Byte) (j : Nat) : effectiveAddress (memWrite s a b) j = effectiveAddress s j := rfl

/-! ### `setFb` -/

@[simp] theorem setFb_v (s : State) (fb : Framebuffer) : (setFb s fb).v = s.v := rfl
@[simp] theorem setFb_i (s : State) (fb : Framebuffer) : (setFb s fb).i = s.i := rfl
@[simp] theorem setFb_pc (s : State) (fb : Framebuffer) : (setFb s fb).pc = s.pc := rfl
@[simp] theorem setFb_dt (s : State) (fb : Framebuffer) : (setFb s fb).dt = s.dt := rfl
@[simp] theorem setFb_st (s : State) (fb : Framebuffer) : (setFb s fb).st = s.st := rfl
@[simp] theorem setFb_stack (s : State) (fb : Framebuffer) : (setFb s fb).stack = s.stack := rfl
@[simp] theorem setFb_sp (s : State) (fb : Framebuffer) : (setFb s fb).sp = s.sp := rfl
@[simp] theorem setFb_fb (s : State) (fb : Framebuffer) : (setFb s fb).fb = fb := rfl
@[simp] theorem setFb_mem (s : State) (fb : Framebuffer) : (setFb s fb).mem = s.mem := rfl
@[simp] theorem setFb_key (s : State) (fb : Framebuffer) : (setFb s fb).key = s.key := rfl
@[simp] theorem setFb_waiting (s : State) (fb : Framebuffer) : (setFb s fb).waiting = s.waiting := rfl
@[simp] theorem setFb_waitDest (s : State) (fb : Framebuffer) : (setFb s fb).waitDest = s.waitDest := rfl
@[simp] theorem setFb_cyc (s : State) (fb : Framebuffer) : (setFb s fb).cyc = s.cyc := rfl
@[simp] theorem setFb_fault (s : State) (fb : Framebuffer) : (setFb s fb).fault = s.fault := rfl
@[simp] theorem setFb_draws (s : State) (fb : Framebuffer) : (setFb s fb).draws = s.draws := rfl
@[simp] theorem reg_setFb (s : State) (fb : Framebuffer) (r : Reg) : reg (setFb s fb) r = reg s r := rfl
@[simp] theorem memRead_setFb (s : State) (fb : Framebuffer) (c : Nat) : memRead (setFb s fb) c = memRead s c := rfl
@[simp] theorem fetch_setFb (s : State) (fb : Framebuffer) : fetch (setFb s fb) = fetch s := rfl
@[simp] theorem effectiveAddress_setFb (s : State) (fb : Framebuffer) (j : Nat) : effectiveAddress (setFb s fb) j = effectiveAddress s j := rfl

/-! ### `beginWait` -/

@[simp] theorem beginWait_v (s : State) (x : Reg) : (beginWait s x).v = s.v := rfl
@[simp] theorem beginWait_i (s : State) (x : Reg) : (beginWait s x).i = s.i := rfl
@[simp] theorem beginWait_pc (s : State) (x : Reg) : (beginWait s x).pc = s.pc := rfl
@[simp] theorem beginWait_dt (s : State) (x : Reg) : (beginWait s x).dt = s.dt := rfl
@[simp] theorem beginWait_st (s : State) (x : Reg) : (beginWait s x).st = s.st := rfl
@[simp] theorem beginWait_stack (s : State) (x : Reg) : (beginWait s x).stack = s.stack := rfl
@[simp] theorem beginWait_sp (s : State) (x : Reg) : (beginWait s x).sp = s.sp := rfl
@[simp] theorem beginWait_fb (s : State) (x : Reg) : (beginWait s x).fb = s.fb := rfl
@[simp] theorem beginWait_mem (s : State) (x : Reg) : (beginWait s x).mem = s.mem := rfl
@[simp] theorem beginWait_key (s : State) (x : Reg) : (beginWait s x).key = s.key := rfl
@[simp] theorem beginWait_waiting (s : State) (x : Reg) : (beginWait s x).waiting = true := rfl
@[simp] theorem beginWait_waitDest (s : State) (x : Reg) : (beginWait s x).waitDest = x := rfl
@[simp] theorem beginWait_cyc (s : State) (x : Reg) : (beginWait s x).cyc = s.cyc := rfl
@[simp] theorem beginWait_fault (s : State) (x : Reg) : (beginWait s x).fault = s.fault := rfl
@[simp] theorem beginWait_draws (s : State) (x : Reg) : (beginWait s x).draws = s.draws := rfl
@[simp] theorem reg_beginWait (s : State) (x : Reg) (r : Reg) : reg (beginWait s x) r = reg s r := rfl
@[simp] theorem memRead_beginWait (s : State) (x : Reg) (c : Nat) : memRead (beginWait s x) c = memRead s c := rfl
@[simp] theorem pixel_beginWait (s : State) (x : Reg) (px py : Nat) : pixel (beginWait s x) px py = pixel s px py := rfl
@[simp] theorem fetch_beginWait (s : State) (x : Reg) : fetch (beginWait s x) = fetch s := rfl
@[simp] theorem effectiveAddress_beginWait (s : State) (x : Reg) (j : Nat) : effectiveAddress (beginWait s x) j = effectiveAddress s j := rfl

/-! ### `endWait` -/

@[simp] theorem endWait_v (s : State) : (endWait s).v = s.v := rfl
@[simp] theorem endWait_i (s : State) : (endWait s).i = s.i := rfl
@[simp] theorem endWait_pc (s : State) : (endWait s).pc = s.pc := rfl
@[simp] theorem endWait_dt (s : State) : (endWait s).dt = s.dt := rfl
@[simp] theorem endWait_st (s : State) : (endWait s).st = s.st := rfl
@[simp] theorem endWait_stack (s : State) : (endWait s).stack = s.stack := rfl
@[simp] theorem endWait_sp (s : State) : (endWait s).sp = s.sp := rfl
@[simp] theorem endWait_fb (s : State) : (endWait s).fb = s.fb := rfl
@[simp] theorem endWait_mem (s : State) : (endWait s).mem = s.mem := rfl
@[simp] theorem endWait_key (s : State) : (endWait s).key = s.key := rfl
@[simp] theorem endWait_waiting (s : State) : (endWait s).waiting = false := rfl
@[simp] theorem endWait_waitDest (s : State) : (endWait s).waitDest = s.waitDest := rfl
@[simp] theorem endWait_cyc (s : State) : (endWait s).cyc = s.cyc := rfl
@[simp] theorem endWait_fault (s : State) : (endWait s).fault = s.fault := rfl
@[simp] theorem endWait_draws (s : State) : (endWait s).draws = s.draws := rfl
@[simp] theorem reg_endWait (s : State) (r : Reg) : reg (endWait s) r = reg s r := rfl
@[simp] theorem memRead_endWait (s : State) (c : Nat) : memRead (endWait s) c = memRead s c := rfl
@[simp] theorem pixel_endWait (s : State) (px py : Nat) : pixel (endWait s) px py = pixel s px py := rfl
@[simp] theorem fetch_endWait (s : State) : fetch (endWait s) = fetch s := rfl
@[simp] theorem effectiveAddress_endWait (s : State) (j : Nat) : effectiveAddress (endWait s) j = effectiveAddress s j := rfl

/-! ### `countDraw` -/

@[simp] theorem countDraw_v (s : State) : (countDraw s).v = s.v := rfl
@[simp] theorem countDraw_i (s : State) : (countDraw s).i = s.i := rfl
@[simp] theorem countDraw_pc (s : State) : (countDraw s).pc = s.pc := rfl
@[simp] theorem countDraw_dt (s : State) : (countDraw s).dt = s.dt := rfl
@[simp] theorem countDraw_st (s : State) : (countDraw s).st = s.st := rfl
@[simp] theorem countDraw_stack (s : State) : (countDraw s).stack = s.stack := rfl
@[simp] theorem countDraw_sp (s : State) : (countDraw s).sp = s.sp := rfl
@[simp] theorem countDraw_fb (s : State) : (countDraw s).fb = s.fb := rfl
@[simp] theorem countDraw_mem (s : State) : (countDraw s).mem = s.mem := rfl
@[simp] theorem countDraw_key (s : State) : (countDraw s).key = s.key := rfl
@[simp] theorem countDraw_waiting (s : State) : (countDraw s).waiting = s.waiting := rfl
@[simp] theorem countDraw_waitDest (s : State) : (countDraw s).waitDest = s.waitDest := rfl
@[simp] theorem countDraw_cyc (s : State) : (countDraw s).cyc = s.cyc := rfl
@[simp] theorem countDraw_fault (s : State) : (countDraw s).fault = s.fault := rfl
@[simp] theorem countDraw_draws (s : State) : (countDraw s).draws = s.draws + 1 := rfl
@[simp] theorem reg_countDraw (s : State) (r : Reg) : reg (countDraw s) r = reg s r := rfl
@[simp] theorem memRead_countDraw (s : State) (c : Nat) : memRead (countDraw s) c = memRead s c := rfl
@[simp] theorem pixel_countDraw (s : State) (px py : Nat) : pixel (countDraw s) px py = pixel s px py := rfl
@[simp] theorem fetch_countDraw (s : State) : fetch (countDraw s) = fetch s := rfl
@[simp] theorem effectiveAddress_countDraw (s : State) (j : Nat) : effectiveAddress (countDraw s) j = effectiveAddress s j := rfl

/-! ### `writeFlag` -/

@[simp] theorem writeFlag_v (s : State) (b : Byte) : (writeFlag s b).v = s.v.set vf.val b := rfl
@[simp] theorem writeFlag_i (s : State) (b : Byte) : (writeFlag s b).i = s.i := rfl
@[simp] theorem writeFlag_pc (s : State) (b : Byte) : (writeFlag s b).pc = s.pc := rfl
@[simp] theorem writeFlag_dt (s : State) (b : Byte) : (writeFlag s b).dt = s.dt := rfl
@[simp] theorem writeFlag_st (s : State) (b : Byte) : (writeFlag s b).st = s.st := rfl
@[simp] theorem writeFlag_stack (s : State) (b : Byte) : (writeFlag s b).stack = s.stack := rfl
@[simp] theorem writeFlag_sp (s : State) (b : Byte) : (writeFlag s b).sp = s.sp := rfl
@[simp] theorem writeFlag_fb (s : State) (b : Byte) : (writeFlag s b).fb = s.fb := rfl
@[simp] theorem writeFlag_mem (s : State) (b : Byte) : (writeFlag s b).mem = s.mem := rfl
@[simp] theorem writeFlag_key (s : State) (b : Byte) : (writeFlag s b).key = s.key := rfl
@[simp] theorem writeFlag_waiting (s : State) (b : Byte) : (writeFlag s b).waiting = s.waiting := rfl
@[simp] theorem writeFlag_waitDest (s : State) (b : Byte) : (writeFlag s b).waitDest = s.waitDest := rfl
@[simp] theorem writeFlag_cyc (s : State) (b : Byte) : (writeFlag s b).cyc = s.cyc := rfl
@[simp] theorem writeFlag_fault (s : State) (b : Byte) : (writeFlag s b).fault = s.fault := rfl
@[simp] theorem writeFlag_draws (s : State) (b : Byte) : (writeFlag s b).draws = s.draws := rfl
@[simp] theorem memRead_writeFlag (s : State) (b : Byte) (c : Nat) : memRead (writeFlag s b) c = memRead s c := rfl
@[simp] theorem pixel_writeFlag (s : State) (b : Byte) (px py : Nat) : pixel (writeFlag s b) px py = pixel s px py := rfl
@[simp] theorem fetch_writeFlag (s : State) (b : Byte) : fetch (writeFlag s b) = fetch s := rfl
@[simp] theorem effectiveAddress_writeFlag (s : State) (b : Byte) (j : Nat) : effectiveAddress (writeFlag s b) j = effectiveAddress s j := rfl

/-! ### `applyPcAction` -/

@[simp] theorem applyPcAction_v (s : State) (a : PcAction) : (applyPcAction s a).v = s.v := rfl
@[simp] theorem applyPcAction_i (s : State) (a : PcAction) : (applyPcAction s a).i = s.i := rfl
@[simp] theorem applyPcAction_pc (s : State) (a : PcAction) : (applyPcAction s a).pc = pcAfter a s.pc := rfl
@[simp] theorem applyPcAction_dt (s : State) (a : PcAction) : (applyPcAction s a).dt = s.dt := rfl
@[simp] theorem applyPcAction_st (s : State) (a : PcAction) : (applyPcAction s a).st = s.st := rfl
@[simp] theorem applyPcAction_stack (s : State) (a : PcAction) : (applyPcAction s a).stack = s.stack := rfl
@[simp] theorem applyPcAction_sp (s : State) (a : PcAction) : (applyPcAction s a).sp = s.sp := rfl
@[simp] theorem applyPcAction_fb (s : State) (a : PcAction) : (applyPcAction s a).fb = s.fb := rfl
@[simp] theorem applyPcAction_mem (s : State) (a : PcAction) : (applyPcAction s a).mem = s.mem := rfl
@[simp] theorem applyPcAction_key (s : State) (a : PcAction) : (applyPcAction s a).key = s.key := rfl
@[simp] theorem applyPcAction_waiting (s : State) (a : PcAction) : (applyPcAction s a).waiting = s.waiting := rfl
@[simp] theorem applyPcAction_waitDest (s : State) (a : PcAction) : (applyPcAction s a).waitDest = s.waitDest := rfl
@[simp] theorem applyPcAction_cyc (s : State) (a : PcAction) : (applyPcAction s a).cyc = s.cyc := rfl
@[simp] theorem applyPcAction_fault (s : State) (a : PcAction) : (applyPcAction s a).fault = s.fault := rfl
@[simp] theorem applyPcAction_draws (s : State) (a : PcAction) : (applyPcAction s a).draws = s.draws := rfl
@[simp] theorem reg_applyPcAction (s : State) (a : PcAction) (r : Reg) : reg (applyPcAction s a) r = reg s r := rfl
@[simp] theorem memRead_applyPcAction (s : State) (a : PcAction) (c : Nat) : memRead (applyPcAction s a) c = memRead s c := rfl
@[simp] theorem pixel_applyPcAction (s : State) (a : PcAction) (px py : Nat) : pixel (applyPcAction s a) px py = pixel s px py := rfl
@[simp] theorem effectiveAddress_applyPcAction (s : State) (a : PcAction) (j : Nat) : effectiveAddress (applyPcAction s a) j = effectiveAddress s j := rfl

/-! ### `decrementTimers` -/

@[simp] theorem decrementTimers_v (s : State) : (decrementTimers s).v = s.v := rfl
@[simp] theorem decrementTimers_i (s : State) : (decrementTimers s).i = s.i := rfl
@[simp] theorem decrementTimers_pc (s : State) : (decrementTimers s).pc = s.pc := rfl
@[simp] theorem decrementTimers_dt (s : State) : (decrementTimers s).dt = countDown s.dt := rfl
@[simp] theorem decrementTimers_st (s : State) : (decrementTimers s).st = countDown s.st := rfl
@[simp] theorem decrementTimers_stack (s : State) : (decrementTimers s).stack = s.stack := rfl
@[simp] theorem decrementTimers_sp (s : State) : (decrementTimers s).sp = s.sp := rfl
@[simp] theorem decrementTimers_fb (s : State) : (decrementTimers s).fb = s.fb := rfl
@[simp] theorem decrementTimers_mem (s : State) : (decrementTimers s).mem = s.mem := rfl
@[simp] theorem decrementTimers_key (s : State) : (decrementTimers s).key = s.key := rfl
@[simp] theorem decrementTimers_waiting (s : State) : (decrementTimers s).waiting = s.waiting := rfl
@[simp] theorem decrementTimers_waitDest (s : State) : (decrementTimers s).waitDest = s.waitDest := rfl
@[simp] theorem decrementTimers_cyc (s : State) : (decrementTimers s).cyc = s.cyc := rfl
@[simp] theorem decrementTimers_fault (s : State) : (decrementTimers s).fault = s.fault := rfl
@[simp] theorem decrementTimers_draws (s : State) : (decrementTimers s).draws = s.draws := rfl
@[simp] theorem reg_decrementTimers (s : State) (r : Reg) : reg (decrementTimers s) r = reg s r := rfl
@[simp] theorem memRead_decrementTimers (s : State) (c : Nat) : memRead (decrementTimers s) c = memRead s c := rfl
@[simp] theorem pixel_decrementTimers (s : State) (px py : Nat) : pixel (decrementTimers s) px py = pixel s px py := rfl
@[simp] theorem fetch_decrementTimers (s : State) : fetch (decrementTimers s) = fetch s := rfl
@[simp] theorem effectiveAddress_decrementTimers (s : State) (j : Nat) : effectiveAddress (decrementTimers s) j = effectiveAddress s j := rfl

/-! ### `timerTickWith` -/

@[simp] theorem timerTickWith_v (s : State) (hz : Nat) : (timerTickWith hz s).v = s.v := rfl
@[simp] theorem timerTickWith_i (s : State) (hz : Nat) : (timerTickWith hz s).i = s.i := rfl
@[simp] theorem timerTickWith_pc (s : State) (hz : Nat) : (timerTickWith hz s).pc = s.pc := rfl
@[simp] theorem timerTickWith_dt (s : State) (hz : Nat) : (timerTickWith hz s).dt = if tickFires hz s then countDown s.dt else s.dt := rfl
@[simp] theorem timerTickWith_st (s : State) (hz : Nat) : (timerTickWith hz s).st = if tickFires hz s then countDown s.st else s.st := rfl
@[simp] theorem timerTickWith_stack (s : State) (hz : Nat) : (timerTickWith hz s).stack = s.stack := rfl
@[simp] theorem timerTickWith_sp (s : State) (hz : Nat) : (timerTickWith hz s).sp = s.sp := rfl
@[simp] theorem timerTickWith_fb (s : State) (hz : Nat) : (timerTickWith hz s).fb = s.fb := rfl
@[simp] theorem timerTickWith_mem (s : State) (hz : Nat) : (timerTickWith hz s).mem = s.mem := rfl
@[simp] theorem timerTickWith_key (s : State) (hz : Nat) : (timerTickWith hz s).key = s.key := rfl
@[simp] theorem timerTickWith_waiting (s : State) (hz : Nat) : (timerTickWith hz s).waiting = s.waiting := rfl
@[simp] theorem timerTickWith_waitDest (s : State) (hz : Nat) : (timerTickWith hz s).waitDest = s.waitDest := rfl
@[simp] theorem timerTickWith_cyc (s : State) (hz : Nat) : (timerTickWith hz s).cyc = nextCyc hz s := rfl
@[simp] theorem timerTickWith_fault (s : State) (hz : Nat) : (timerTickWith hz s).fault = s.fault := rfl
@[simp] theorem timerTickWith_draws (s : State) (hz : Nat) : (timerTickWith hz s).draws = s.draws := rfl
@[simp] theorem reg_timerTickWith (s : State) (hz : Nat) (r : Reg) : reg (timerTickWith hz s) r = reg s r := rfl
@[simp] theorem memRead_timerTickWith (s : State) (hz : Nat) (c : Nat) : memRead (timerTickWith hz s) c = memRead s c := rfl
@[simp] theorem pixel_timerTickWith (s : State) (hz : Nat) (px py : Nat) : pixel (timerTickWith hz s) px py = pixel s px py := rfl
@[simp] theorem fetch_timerTickWith (s : State) (hz : Nat) : fetch (timerTickWith hz s) = fetch s := rfl
@[simp] theorem effectiveAddress_timerTickWith (s : State) (hz : Nat) (j : Nat) : effectiveAddress (timerTickWith hz s) j = effectiveAddress s j := rfl

/-! ### `timerTick` -/

@[simp] theorem timerTick_v (s : State) : (timerTick s).v = s.v := rfl
@[simp] theorem timerTick_i (s : State) : (timerTick s).i = s.i := rfl
@[simp] theorem timerTick_pc (s : State) : (timerTick s).pc = s.pc := rfl
@[simp] theorem timerTick_dt (s : State) : (timerTick s).dt = if tickFires Config.clockHz s then countDown s.dt else s.dt := rfl
@[simp] theorem timerTick_st (s : State) : (timerTick s).st = if tickFires Config.clockHz s then countDown s.st else s.st := rfl
@[simp] theorem timerTick_stack (s : State) : (timerTick s).stack = s.stack := rfl
@[simp] theorem timerTick_sp (s : State) : (timerTick s).sp = s.sp := rfl
@[simp] theorem timerTick_fb (s : State) : (timerTick s).fb = s.fb := rfl
@[simp] theorem timerTick_mem (s : State) : (timerTick s).mem = s.mem := rfl
@[simp] theorem timerTick_key (s : State) : (timerTick s).key = s.key := rfl
@[simp] theorem timerTick_waiting (s : State) : (timerTick s).waiting = s.waiting := rfl
@[simp] theorem timerTick_waitDest (s : State) : (timerTick s).waitDest = s.waitDest := rfl
@[simp] theorem timerTick_cyc (s : State) : (timerTick s).cyc = nextCyc Config.clockHz s := rfl
@[simp] theorem timerTick_fault (s : State) : (timerTick s).fault = s.fault := rfl
@[simp] theorem timerTick_draws (s : State) : (timerTick s).draws = s.draws := rfl
@[simp] theorem reg_timerTick (s : State) (r : Reg) : reg (timerTick s) r = reg s r := rfl
@[simp] theorem memRead_timerTick (s : State) (c : Nat) : memRead (timerTick s) c = memRead s c := rfl
@[simp] theorem pixel_timerTick (s : State) (px py : Nat) : pixel (timerTick s) px py = pixel s px py := rfl
@[simp] theorem fetch_timerTick (s : State) : fetch (timerTick s) = fetch s := rfl
@[simp] theorem effectiveAddress_timerTick (s : State) (j : Nat) : effectiveAddress (timerTick s) j = effectiveAddress s j := rfl

/-! ### `hostReset` -/

@[simp] theorem hostReset_v (s : State) : (hostReset s).v = State.reset.v := rfl
@[simp] theorem hostReset_i (s : State) : (hostReset s).i = 0 := rfl
@[simp] theorem hostReset_pc (s : State) : (hostReset s).pc = 0x200 := rfl
@[simp] theorem hostReset_dt (s : State) : (hostReset s).dt = 0 := rfl
@[simp] theorem hostReset_st (s : State) : (hostReset s).st = 0 := rfl
@[simp] theorem hostReset_stack (s : State) : (hostReset s).stack = State.reset.stack := rfl
@[simp] theorem hostReset_sp (s : State) : (hostReset s).sp = 0 := rfl
@[simp] theorem hostReset_fb (s : State) : (hostReset s).fb = fbClear := rfl
@[simp] theorem hostReset_mem (s : State) : (hostReset s).mem = [] := rfl
@[simp] theorem hostReset_key (s : State) : (hostReset s).key = State.reset.key := rfl
@[simp] theorem hostReset_waiting (s : State) : (hostReset s).waiting = false := rfl
@[simp] theorem hostReset_waitDest (s : State) : (hostReset s).waitDest = 0 := rfl
@[simp] theorem hostReset_cyc (s : State) : (hostReset s).cyc = 0 := rfl
@[simp] theorem hostReset_fault (s : State) : (hostReset s).fault = none := rfl
@[simp] theorem hostReset_draws (s : State) : (hostReset s).draws = s.draws := rfl

/-! ### `hostSetKey` -/

@[simp] theorem hostSetKey_v (s : State) (k : Fin 16) (down : Bool) : (hostSetKey s k down).v = s.v := rfl
@[simp] theorem hostSetKey_i (s : State) (k : Fin 16) (down : Bool) : (hostSetKey s k down).i = s.i := rfl
@[simp] theorem hostSetKey_pc (s : State) (k : Fin 16) (down : Bool) : (hostSetKey s k down).pc = s.pc := rfl
@[simp] theorem hostSetKey_dt (s : State) (k : Fin 16) (down : Bool) : (hostSetKey s k down).dt = s.dt := rfl
@[simp] theorem hostSetKey_st (s : State) (k : Fin 16) (down : Bool) : (hostSetKey s k down).st = s.st := rfl
@[simp] theorem hostSetKey_stack (s : State) (k : Fin 16) (down : Bool) : (hostSetKey s k down).stack = s.stack := rfl
@[simp] theorem hostSetKey_sp (s : State) (k : Fin 16) (down : Bool) : (hostSetKey s k down).sp = s.sp := rfl
@[simp] theorem hostSetKey_fb (s : State) (k : Fin 16) (down : Bool) : (hostSetKey s k down).fb = s.fb := rfl
@[simp] theorem hostSetKey_mem (s : State) (k : Fin 16) (down : Bool) : (hostSetKey s k down).mem = s.mem := rfl
@[simp] theorem hostSetKey_key (s : State) (k : Fin 16) (down : Bool) : (hostSetKey s k down).key = s.key.set k.val down := rfl
@[simp] theorem hostSetKey_waiting (s : State) (k : Fin 16) (down : Bool) : (hostSetKey s k down).waiting = s.waiting := rfl
@[simp] theorem hostSetKey_waitDest (s : State) (k : Fin 16) (down : Bool) : (hostSetKey s k down).waitDest = s.waitDest := rfl
@[simp] theorem hostSetKey_cyc (s : State) (k : Fin 16) (down : Bool) : (hostSetKey s k down).cyc = s.cyc := rfl
@[simp] theorem hostSetKey_fault (s : State) (k : Fin 16) (down : Bool) : (hostSetKey s k down).fault = s.fault := rfl
@[simp] theorem hostSetKey_draws (s : State) (k : Fin 16) (down : Bool) : (hostSetKey s k down).draws = s.draws := rfl
@[simp] theorem reg_hostSetKey (s : State) (k : Fin 16) (down : Bool) (r : Reg) : reg (hostSetKey s k down) r = reg s r := rfl
@[simp] theorem memRead_hostSetKey (s : State) (k : Fin 16) (down : Bool) (c : Nat) : memRead (hostSetKey s k down) c = memRead s c := rfl
@[simp] theorem pixel_hostSetKey (s : State) (k : Fin 16) (down : Bool) (px py : Nat) : pixel (hostSetKey s k down) px py = pixel s px py := rfl
@[simp] theorem fetch_hostSetKey (s : State) (k : Fin 16) (down : Bool) : fetch (hostSetKey s k down) = fetch s := rfl
@[simp] theorem effectiveAddress_hostSetKey (s : State) (k : Fin 16) (down : Bool) (j : Nat) : effectiveAddress (hostSetKey s k down) j = effectiveAddress s j := rfl

end Sys2Proof.Machine
end

