-- ==== Sys2Proof/Laws/Registers.lean ====
section
/-!
SUPPORT. Registers, the stack, the keypad and the PC actions: what each shared operation can do, said once.
-/

namespace Sys2Proof.Machine

/-! ### General registers -/

/-- Reading a register after writing one. -/
theorem reg_setReg (s : State) (x : Reg) (b : Byte) (r : Reg) :
    reg (setReg s x b) r = if r = x then b else reg s r := by
  simp only [reg, setReg, Vector.getElem_set, Fin.ext_iff, eq_comm]

@[simp] theorem reg_setReg_self (s : State) (x : Reg) (b : Byte) : reg (setReg s x b) x = b := by
  simp [reg_setReg]

theorem reg_setReg_of_ne (s : State) {x r : Reg} (b : Byte) (h : r ≠ x) : reg (setReg s x b) r = reg s r := by
  simp [reg_setReg, h]

/-- A flag is a write of VF. -/
theorem writeFlag_eq (s : State) (f : Byte) : writeFlag s f = setReg s vf f := rfl

/-- Reading a register after a flag was written. -/
theorem reg_writeFlag (s : State) (f : Byte) (r : Reg) : reg (writeFlag s f) r = if r = vf then f else reg s r :=
  reg_setReg s vf f r

/-- Reading a register after an operation that defines a flag: VF is written last and wins (40_cycle R127). -/
theorem reg_writeFlag_setReg (s : State) (x : Reg) (b f : Byte) (r : Reg) :
    reg (writeFlag (setReg s x b) f) r = if r = vf then f else if r = x then b else reg s r := by
  rw [reg_writeFlag, reg_setReg]

/-! ### Flags -/

/-- A flag is 1 exactly when its condition holds. -/
@[simp] theorem flagByte_eq_one (c : Bool) : flagByte c = 1 ↔ c = true := by cases c <;> decide

/-- A flag is 0 exactly when its condition fails. -/
@[simp] theorem flagByte_eq_zero (c : Bool) : flagByte c = 0 ↔ c = false := by cases c <;> decide

/-- The flag of a decided condition. -/
theorem flagByte_decide (p : Prop) [Decidable p] : flagByte (decide p) = if p then 1 else 0 := by
  by_cases h : p <;> simp [flagByte, h]

/-- A flag is two-valued. -/
theorem flagByte_cases (c : Bool) : flagByte c = 1 ∨ flagByte c = 0 := by cases c <;> decide

/-! ### The registers that `Fx65` loads -/

/-- `loadRegs` changes the registers and nothing else. -/
theorem loadRegs_eq (s : State) (n : Nat) : loadRegs s n = { s with v := (loadRegs s n).v } := by
  induction n with
  | zero => rfl
  | succ n ih =>
    simp only [loadRegs]
    rw [ih]
    rfl

/-- `loadRegs` writes MEM[I + k] into V[k] for k below the count, and no other register (43_index_memory R195). -/
theorem reg_loadRegs (s : State) (n : Nat) (hn : n ≤ 16) (r : Reg) :
    reg (loadRegs s n) r = if r.val < n then memRead s (effectiveAddress s r.val) else reg s r := by
  induction n with
  | zero => simp [loadRegs]
  | succ n ih =>
    simp only [loadRegs]
    rw [reg_setReg, ih (by omega)]
    have hv : (Fin.ofNat 16 n).val = n := by simp only [Fin.ofNat]; omega
    by_cases h : r = Fin.ofNat 16 n
    · subst h
      simp only [hv]
      simp
    · have hne : r.val ≠ n := fun he => h (Fin.ext (by omega))
      rw [if_neg h]
      by_cases hlt : r.val < n
      · rw [if_pos hlt, if_pos (by omega)]
      · rw [if_neg hlt, if_neg (by omega)]

/-! ### The stack -/

/-- Everything `push` can answer (10_state R28). -/
theorem push_spec (s : State) (a : Word) :
    (s.sp.val = 16 ∧ push s a = .error .stackOverflow) ∨
    (∃ h : s.sp.val < 16, push s a =
      .ok { s with stack := s.stack.set s.sp.val a, sp := ⟨s.sp.val + 1, by omega⟩ }) := by
  by_cases h : s.sp.val < 16
  · exact .inr ⟨h, by simp [push, h]⟩
  · exact .inl ⟨by omega, by simp [push, h]⟩

/-- Everything `pop` can answer (10_state R29). -/
theorem pop_spec (s : State) :
    (s.sp.val = 0 ∧ pop s = .error .stackUnderflow) ∨
    (∃ h : 0 < s.sp.val, pop s =
      .ok (s.stack[s.sp.val - 1]'(by omega), { s with sp := ⟨s.sp.val - 1, by omega⟩ })) := by
  by_cases h : 0 < s.sp.val
  · exact .inr ⟨h, by simp [pop, h]⟩
  · exact .inl ⟨by omega, by simp [pop, h]⟩

/-! ### Keys -/

/-- Everything `isDown` can answer: KEY[v], or a free draw for an index above 15 (45_timers_keypad R230). -/
theorem isDown_spec (s : State) (v : Byte) :
    (∃ h : v.toNat < 16, isDown s v = (s.key[v.toNat], s)) ∨
    (16 ≤ v.toNat ∧ isDown s v = (Config.keyDraw s.draws, countDraw s)) := by
  by_cases h : v.toNat < 16
  · exact .inl ⟨h, by simp [isDown, h]⟩
  · exact .inr ⟨by omega, by simp [isDown, h, drawBool]⟩

/-- The poll finds no key exactly when every key is up. -/
theorem firstKeyDown_none (s : State) : firstKeyDown s = none ↔ ∀ k : Fin 16, s.key[k.val] = false := by
  simp only [firstKeyDown, List.findIdx?_eq_none_iff]
  constructor
  · intro h k
    exact h _ (by simp)
  · intro h d hd
    obtain ⟨n, hn, rfl⟩ := List.mem_iff_getElem.mp hd
    simp only [Vector.length_toList] at hn
    simpa using h ⟨n, hn⟩

/-- The poll finds the least key that is down (40_cycle R122, D19). -/
theorem firstKeyDown_some (s : State) (n : Nat) :
    firstKeyDown s = some n ↔
      ∃ h : n < 16, s.key[n] = true ∧ ∀ (j : Nat) (hj : j < n), s.key[j]'(by omega) = false := by
  simp only [firstKeyDown, List.findIdx?_eq_some_iff_getElem, Vector.length_toList, Vector.getElem_toList,
    Bool.not_eq_true]

/-- Everything the wait poll can do (40_cycle R122). -/
theorem waitPoll_spec (s : State) :
    (firstKeyDown s = none ∧ waitPoll s = s) ∨
    (∃ k, firstKeyDown s = some k ∧ waitPoll s = endWait (setReg s s.waitDest (BitVec.ofNat 8 k))) := by
  unfold waitPoll
  cases h : firstKeyDown s with
  | none => exact .inl ⟨rfl, rfl⟩
  | some k => exact .inr ⟨k, rfl, rfl⟩

/-! ### Ends of a meaning -/

/-- A handler that completes answers the next state its PC action gives, and no other. -/
@[simp] theorem finish_eq_next (s t : State) (a : PcAction) : finish s a = .next t ↔ t = applyPcAction s a := by
  simp [finish, eq_comm]

/-- A fatal fault answers the state with FAULT set, and no other (60_exceptions R257). -/
@[simp] theorem takeFault_eq_next (s t : State) (k : Fault) :
    takeFault s k = .next t ↔ t = { s with fault := some k } := by
  simp [takeFault, eq_comm]

end Sys2Proof.Machine
end

