-- ==== Sys2Proof/Laws/Display.lean ====
section
/-!
SUPPORT. The framebuffer and the blit, pixel by pixel.
-/

namespace Sys2Proof.Machine

/-- Reading a pixel after setting one: coordinates are compared modulo 64 and 32 (10_state R31). -/
theorem fbGet_fbSet (fb : Framebuffer) (x y : Nat) (lit : Bool) (px py : Nat) :
    fbGet (fbSet fb x y lit) px py = if x % 64 = px % 64 ∧ y % 32 = py % 32 then lit else fbGet fb px py := by
  unfold fbGet fbSet
  by_cases hx : x % 64 = px % 64
  · by_cases hy : y % 32 = py % 32
    · simp [hx, hy]
    · simp [hx, hy]
  · simp [hx]

/-- Every pixel of the cleared display is false (10_state R32). -/
@[simp] theorem fbGet_fbClear (x y : Nat) : fbGet fbClear x y = false := by
  simp [fbGet, fbClear]

/-- Toggling a pixel flips it and no other, and notes whether it was lit (44_display R210). -/
theorem fbGet_togglePixel (acc : Framebuffer × Bool) (x y px py : Nat) :
    fbGet (togglePixel acc x y).1 px py =
      if x % 64 = px % 64 ∧ y % 32 = py % 32 then !fbGet acc.1 px py else fbGet acc.1 px py := by
  simp only [togglePixel, fbGet_fbSet]
  split
  · rename_i h
    simp [fbGet, h.1, h.2]
  · rfl

@[simp] theorem togglePixel_snd (acc : Framebuffer × Bool) (x y : Nat) :
    (togglePixel acc x y).2 = (acc.2 || fbGet acc.1 x y) := rfl

/-- The sprite rows that `Dxyn` reads: row r is the byte at I + k + r (44_display R212). -/
theorem bytesAtIndex_getElem? (s : State) (k n r : Nat) :
    (bytesAtIndex s k n)[r]? = if r < n then some (memRead s (effectiveAddress s (k + r))) else none := by
  induction n generalizing k r with
  | zero => simp [bytesAtIndex]
  | succ n ih =>
    cases r with
    | zero => simp [bytesAtIndex]
    | succ r =>
      simp only [bytesAtIndex, List.getElem?_cons_succ, ih, Nat.add_lt_add_iff_right]
      rw [show k + 1 + r = k + (r + 1) by omega]

@[simp] theorem bytesAtIndex_length (s : State) (k n : Nat) : (bytesAtIndex s k n).length = n := by
  induction n generalizing k with
  | zero => rfl
  | succ n ih => simp [bytesAtIndex, ih]

/-! ### One row -/

/-- The step of `blitRow`'s fold: one bit of a row. -/
def blitBit (x0 y : Nat) (row : Byte) (acc : Framebuffer × Bool) (b : Nat) : Framebuffer × Bool :=
  if spriteBit row b then togglePixel acc (x0 + b) y else acc

theorem fbGet_congr (fb : Framebuffer) {x x' y y' : Nat} (hx : x % 64 = x' % 64) (hy : y % 32 = y' % 32) :
    fbGet fb x y = fbGet fb x' y' := by
  simp [fbGet, hx, hy]

/-- The bits of one row reach different pixels, so each flips its own (44_display R210: 8 < 64). -/
theorem fbGet_foldl_blitBit (x0 y : Nat) (row : Byte) (bs : List Nat) (hn : bs.Nodup) (h8 : ∀ b ∈ bs, b < 8)
    (acc : Framebuffer × Bool) (px py : Nat) :
    fbGet (bs.foldl (blitBit x0 y row) acc).1 px py =
      xor (fbGet acc.1 px py)
        (decide (∃ b ∈ bs, spriteBit row b = true ∧ (x0 + b) % 64 = px % 64 ∧ y % 32 = py % 32)) := by
  induction bs generalizing acc with
  | nil => simp
  | cons b bs ih =>
    rw [List.foldl_cons, ih hn.of_cons fun c hc => h8 c (List.mem_cons_of_mem _ hc)]
    have hb := h8 b List.mem_cons_self
    by_cases hc : spriteBit row b = true ∧ (x0 + b) % 64 = px % 64 ∧ y % 32 = py % 32
    · have hrest : ¬ ∃ c ∈ bs, spriteBit row c = true ∧ (x0 + c) % 64 = px % 64 ∧ y % 32 = py % 32 := by
        rintro ⟨c, hcm, -, hcx, -⟩
        have hc8 := h8 c (List.mem_cons_of_mem _ hcm)
        have : c = b := by have := hc.2.1; omega
        exact (List.nodup_cons.mp hn).1 (this ▸ hcm)
      have hall : ∃ c ∈ b :: bs, spriteBit row c = true ∧ (x0 + c) % 64 = px % 64 ∧ y % 32 = py % 32 :=
        ⟨b, List.mem_cons_self, hc⟩
      rw [decide_eq_false hrest, decide_eq_true hall]
      simp [blitBit, hc.1, fbGet_togglePixel, hc.2]
    · have hsame : fbGet (blitBit x0 y row acc b).1 px py = fbGet acc.1 px py := by
        unfold blitBit
        split
        · rename_i hs
          rw [fbGet_togglePixel, if_neg fun h => hc ⟨hs, h⟩]
        · rfl
      rw [hsame]
      congr 2
      simp only [List.exists_mem_cons_iff, hc, false_or]

theorem foldl_blitBit_snd (x0 y : Nat) (row : Byte) (bs : List Nat) (hn : bs.Nodup) (h8 : ∀ b ∈ bs, b < 8)
    (acc : Framebuffer × Bool) :
    (bs.foldl (blitBit x0 y row) acc).2 = true ↔
      acc.2 = true ∨ ∃ b ∈ bs, spriteBit row b = true ∧ fbGet acc.1 (x0 + b) y = true := by
  induction bs generalizing acc with
  | nil => simp
  | cons b bs ih =>
    rw [List.foldl_cons, ih hn.of_cons fun c hc => h8 c (List.mem_cons_of_mem _ hc)]
    have hb := h8 b List.mem_cons_self
    have hrest : ∀ c ∈ bs, fbGet (blitBit x0 y row acc b).1 (x0 + c) y = fbGet acc.1 (x0 + c) y := by
      intro c hcm
      have hc8 := h8 c (List.mem_cons_of_mem _ hcm)
      have hne : c ≠ b := fun h => (List.nodup_cons.mp hn).1 (h ▸ hcm)
      unfold blitBit
      split
      · rw [fbGet_togglePixel, if_neg (by omega)]
      · rfl
    have hhead : (blitBit x0 y row acc b).2 = true ↔
        acc.2 = true ∨ (spriteBit row b = true ∧ fbGet acc.1 (x0 + b) y = true) := by
      unfold blitBit
      split <;> simp_all
    rw [hhead, List.exists_mem_cons_iff, or_assoc]
    refine or_congr_right (or_congr_right (exists_congr fun c => and_congr_right fun hcm => ?_))
    rw [hrest c hcm]

theorem blitRow_eq (acc : Framebuffer × Bool) (x0 y : Nat) (row : Byte) :
    blitRow acc x0 y row = [0, 1, 2, 3, 4, 5, 6, 7].foldl (blitBit x0 y row) acc := rfl

/-- The pixel `(px, py)` is under a 1 bit of one row drawn at `(x0, y)`. -/
def rowCovers (x0 y : Nat) (row : Byte) (px py : Nat) : Prop :=
  ∃ b < 8, spriteBit row b = true ∧ (x0 + b) % 64 = px % 64 ∧ y % 32 = py % 32

theorem mem_columns (b : Nat) : b ∈ [0, 1, 2, 3, 4, 5, 6, 7] ↔ b < 8 := by
  simp only [List.mem_cons, List.not_mem_nil, or_false]
  omega

open Classical in
/-- What one row does to a pixel (44_display R210). -/
theorem fbGet_blitRow (acc : Framebuffer × Bool) (x0 y : Nat) (row : Byte) (px py : Nat) :
    fbGet (blitRow acc x0 y row).1 px py = xor (fbGet acc.1 px py) (decide (rowCovers x0 y row px py)) := by
  rw [blitRow_eq, fbGet_foldl_blitBit x0 y row _ (by decide) (fun b hb => (mem_columns b).mp hb)]
  congr 1
  simp only [rowCovers, mem_columns]
  congr 1

/-- When one row turns a lit pixel off (44_display R210). -/
theorem blitRow_snd (acc : Framebuffer × Bool) (x0 y : Nat) (row : Byte) :
    (blitRow acc x0 y row).2 = true ↔
      acc.2 = true ∨ ∃ px py, rowCovers x0 y row px py ∧ fbGet acc.1 px py = true := by
  rw [blitRow_eq, foldl_blitBit_snd x0 y row _ (by decide) fun b hb => (mem_columns b).mp hb]
  refine or_congr_right ⟨?_, ?_⟩
  · rintro ⟨b, hb, hs, hl⟩
    exact ⟨x0 + b, y, ⟨b, (mem_columns b).mp hb, hs, rfl, rfl⟩, hl⟩
  · rintro ⟨px, py, ⟨b, hb, hs, hx, hy⟩, hl⟩
    exact ⟨b, (mem_columns b).mpr hb, hs, by rw [fbGet_congr acc.1 hx hy]; exact hl⟩

/-! ### All rows -/

/-- The first row, or a later one, covers a pixel. -/
theorem spriteCovers_cons (x0 y : Nat) (row : Byte) (rows : List Byte) (px py : Nat) :
    spriteCovers x0 y (row :: rows) px py ↔ rowCovers x0 y row px py ∨ spriteCovers x0 (y + 1) rows px py := by
  constructor
  · rintro ⟨r, b, w, hr, hb, hs, hx, hy⟩
    cases r with
    | zero =>
      simp only [List.getElem?_cons_zero, Option.some.injEq] at hr
      subst hr
      exact .inl ⟨b, hb, hs, hx, hy⟩
    | succ r => exact .inr ⟨r, b, w, hr, hb, hs, hx, by rw [← hy]; congr 1; omega⟩
  · rintro (⟨b, hb, hs, hx, hy⟩ | ⟨r, b, w, hr, hb, hs, hx, hy⟩)
    · exact ⟨0, b, row, rfl, hb, hs, hx, hy⟩
    · exact ⟨r + 1, b, w, hr, hb, hs, hx, by rw [← hy]; congr 1; omega⟩

/-- Rows of a sprite of at most 32 rows do not meet (44_display R210: 15 < 32). -/
theorem not_rowCovers_of_spriteCovers {x0 y : Nat} {row : Byte} {rows : List Byte} {px py : Nat}
    (hlen : rows.length < 32) (h : spriteCovers x0 (y + 1) rows px py) : ¬ rowCovers x0 y row px py := by
  rintro ⟨b', -, -, -, hy'⟩
  obtain ⟨r, b, w, hr, -, -, -, hy⟩ := h
  have : r < rows.length := (List.getElem?_eq_some_iff.mp hr).1
  omega

open Classical in
/-- What the blit does to a pixel: it flips those the sprite covers, and no other (44_display R210). -/
theorem fbGet_blitRows (acc : Framebuffer × Bool) (x0 y : Nat) (rows : List Byte) (hlen : rows.length ≤ 32)
    (px py : Nat) :
    fbGet (blitRows acc x0 y rows).1 px py =
      xor (fbGet acc.1 px py) (decide (spriteCovers x0 y rows px py)) := by
  induction rows generalizing acc y with
  | nil => simp [blitRows, spriteCovers]
  | cons row rows ih =>
    simp only [List.length_cons] at hlen
    simp only [blitRows]
    rw [ih _ _ (by omega), fbGet_blitRow]
    simp only [spriteCovers_cons]
    by_cases h : spriteCovers x0 (y + 1) rows px py
    · simp [h, not_rowCovers_of_spriteCovers (row := row) (by omega) h]
    · simp [h]

open Classical in
/-- When the blit turns a lit pixel off (44_display R210). -/
theorem blitRows_snd (acc : Framebuffer × Bool) (x0 y : Nat) (rows : List Byte) (hlen : rows.length ≤ 32) :
    (blitRows acc x0 y rows).2 = true ↔
      acc.2 = true ∨ ∃ px py, spriteCovers x0 y rows px py ∧ fbGet acc.1 px py = true := by
  induction rows generalizing acc y with
  | nil => simp [blitRows, spriteCovers]
  | cons row rows ih =>
    simp only [List.length_cons] at hlen
    simp only [blitRows]
    rw [ih _ _ (by omega), blitRow_snd, or_assoc]
    refine or_congr_right ?_
    simp only [spriteCovers_cons, fbGet_blitRow]
    constructor
    · rintro (⟨px, py, h, hl⟩ | ⟨px, py, h, hl⟩)
      · exact ⟨px, py, .inl h, hl⟩
      · refine ⟨px, py, .inr h, ?_⟩
        simpa [not_rowCovers_of_spriteCovers (row := row) (by omega) h] using hl
    · rintro ⟨px, py, h | h, hl⟩
      · exact .inl ⟨px, py, h, hl⟩
      · refine .inr ⟨px, py, h, ?_⟩
        simpa [not_rowCovers_of_spriteCovers (row := row) (by omega) h] using hl

end Sys2Proof.Machine
end

