-- ==== Sys2Proof/Laws/Memory.lean ====
section
/-!
SUPPORT. Memory: reading after a write, and the canonical form, which every memory operation keeps (log 7).
-/

namespace Sys2Proof.Machine

/-! ### Reading -/

/-- An address below every listed one is unlisted, so it reads as 0. -/
theorem cellsRead_of_lt {m : Memory} {lo a : Nat} (h : Memory.wfFrom lo m = true) (ha : a < lo) : cellsRead m a = 0 := by
  induction m generalizing lo with
  | nil => rfl
  | cons c m ih =>
    obtain ⟨k, b⟩ := c
    simp only [Memory.wfFrom, Bool.and_eq_true, decide_eq_true_eq] at h
    have hk : k ≠ a := by omega
    simp only [cellsRead, hk, if_false]
    exact ih h.2 (by omega)

@[simp] theorem cellsRead_cellsCons (m : Memory) (a : Nat) (b : Byte) (c : Nat)
    (hm : a = c → cellsRead m a = 0) : cellsRead (cellsCons a b m) c = if a = c then b else cellsRead m c := by
  unfold cellsCons
  split
  · split
    · subst_vars; exact hm rfl
    · rfl
  · rfl

/-- Reading after a write: the byte written at that address, and every other byte as before. -/
theorem cellsRead_cellsWrite {m : Memory} {lo : Nat} (h : Memory.wfFrom lo m = true) (a : Nat) (b : Byte) (c : Nat) :
    cellsRead (cellsWrite m a b) c = if a = c then b else cellsRead m c := by
  induction m generalizing lo with
  | nil => exact cellsRead_cellsCons [] a b c fun _ => rfl
  | cons p m ih =>
    obtain ⟨k, d⟩ := p
    have hw := h
    simp only [Memory.wfFrom, Bool.and_eq_true, decide_eq_true_eq] at h
    obtain ⟨⟨⟨_, _⟩, _⟩, hm⟩ := h
    unfold cellsWrite
    split
    · rename_i hak
      refine cellsRead_cellsCons _ a b c fun _ => ?_
      have hk : k ≠ a := by omega
      simp only [cellsRead, hk, if_false]
      exact cellsRead_of_lt hm (by omega)
    · split
      · rename_i hak
        subst hak
        rw [cellsRead_cellsCons m a b c fun _ => cellsRead_of_lt hm (by omega)]
        simp only [cellsRead]
        split <;> simp_all
      · simp only [cellsRead, ih hm]
        split <;> split <;> simp_all

/-! ### The canonical form -/

theorem wfFrom_mono {m : Memory} {lo lo' : Nat} (h : Memory.wfFrom lo m = true) (hl : lo' ≤ lo) :
    Memory.wfFrom lo' m = true := by
  cases m with
  | nil => rfl
  | cons c m =>
    simp only [Memory.wfFrom, Bool.and_eq_true, decide_eq_true_eq] at h ⊢
    exact ⟨⟨⟨by omega, h.1.1.2⟩, h.1.2⟩, h.2⟩

theorem cellsCons_wfFrom {m : Memory} {lo a : Nat} {b : Byte} (hlo : lo ≤ a) (ha : a < 4096)
    (h : Memory.wfFrom (a + 1) m = true) : Memory.wfFrom lo (cellsCons a b m) = true := by
  unfold cellsCons
  split
  · exact wfFrom_mono h (by omega)
  · simp_all [Memory.wfFrom]

/-- A write keeps the canonical form. -/
theorem cellsWrite_wfFrom {m : Memory} {lo a : Nat} (b : Byte) (hlo : lo ≤ a) (ha : a < 4096)
    (h : Memory.wfFrom lo m = true) : Memory.wfFrom lo (cellsWrite m a b) = true := by
  induction m generalizing lo with
  | nil => exact cellsCons_wfFrom hlo ha rfl
  | cons p m ih =>
    obtain ⟨k, d⟩ := p
    simp only [Memory.wfFrom, Bool.and_eq_true, decide_eq_true_eq] at h
    obtain ⟨⟨⟨h1, h2⟩, h3⟩, hm⟩ := h
    unfold cellsWrite
    split
    · refine cellsCons_wfFrom hlo ha ?_
      simp only [Memory.wfFrom, Bool.and_eq_true, decide_eq_true_eq]
      exact ⟨⟨⟨by omega, h2⟩, h3⟩, hm⟩
    · split
      · rename_i hak
        subst hak
        exact cellsCons_wfFrom hlo ha hm
      · simp only [Memory.wfFrom, Bool.and_eq_true, decide_eq_true_eq]
        exact ⟨⟨⟨h1, h2⟩, h3⟩, ih (by omega) hm⟩

/-- `memWrite` keeps the canonical form. -/
theorem memWrite_wf {s : State} (a : Nat) (b : Byte) (h : s.mem.wf = true) : (memWrite s a b).mem.wf = true :=
  cellsWrite_wfFrom b (Nat.zero_le _) (Nat.mod_lt _ (by decide)) h

/-- Memory after reset is in canonical form. -/
theorem reset_mem_wf : State.reset.mem.wf = true := rfl

/-- Reading a byte after writing one: addresses are compared modulo 4096 (20_memory R61). -/
theorem memRead_memWrite {s : State} (h : s.mem.wf = true) (a : Nat) (b : Byte) (c : Nat) :
    memRead (memWrite s a b) c = if a % 4096 = c % 4096 then b else memRead s c :=
  cellsRead_cellsWrite h _ b _

/-- Addresses are taken modulo 4096 (20_memory R61). -/
theorem memRead_mod (s : State) (a : Nat) : memRead s (a % 4096) = memRead s a := by
  simp [memRead]

/-- Every byte reset leaves reads as 0. -/
@[simp] theorem memRead_reset (a : Nat) : memRead State.reset a = 0 := rfl

/-! ### The runs of bytes that `Fx55` and the host's load store -/

/-- `storeRegs` keeps the canonical form. -/
theorem storeRegs_wf {s : State} (n : Nat) (h : s.mem.wf = true) : (storeRegs s n).mem.wf = true := by
  induction n with
  | zero => exact h
  | succ n ih => exact memWrite_wf _ _ ih

/-- The host's load keeps the canonical form. -/
theorem loadBytes_wf {s : State} (a : Nat) (bytes : List Byte) (h : s.mem.wf = true) :
    (loadBytes s a bytes).mem.wf = true := by
  induction bytes generalizing s a with
  | nil => exact h
  | cons b bytes ih => exact ih (a + 1) (memWrite_wf a b h)

/-- `storeRegs` changes memory and nothing else. -/
theorem storeRegs_eq (s : State) (n : Nat) : storeRegs s n = { s with mem := (storeRegs s n).mem } := by
  induction n with
  | zero => rfl
  | succ n ih =>
    simp only [storeRegs]
    rw [ih]
    rfl

/-- The host's load changes memory and nothing else. -/
theorem loadBytes_eq (s : State) (a : Nat) (bytes : List Byte) :
    loadBytes s a bytes = { s with mem := (loadBytes s a bytes).mem } := by
  induction bytes generalizing s a with
  | nil => rfl
  | cons b bytes ih =>
    simp only [loadBytes]
    rw [ih]
    rfl

/-- `storeRegs` leaves every byte it does not store. -/
theorem memRead_storeRegs_other {s : State} (h : s.mem.wf = true) (n a : Nat)
    (ha : ∀ k < n, effectiveAddress s k % 4096 ≠ a % 4096) : memRead (storeRegs s n) a = memRead s a := by
  induction n with
  | zero => rfl
  | succ n ih =>
    simp only [storeRegs]
    rw [memRead_memWrite (storeRegs_wf n h), if_neg (ha n (by omega))]
    exact ih fun k hk => ha k (by omega)

/-- `storeRegs` stores V[k] at I + k (43_index_memory R194). -/
theorem memRead_storeRegs {s : State} (h : s.mem.wf = true) (n k : Nat) (hk : k < n) (hn : n ≤ 16) :
    memRead (storeRegs s n) (effectiveAddress s k) = reg s (Fin.ofNat 16 k) := by
  induction n with
  | zero => omega
  | succ n ih =>
    simp only [storeRegs]
    rw [memRead_memWrite (storeRegs_wf n h)]
    split
    · rename_i heq
      have : k = n := by simp only [effectiveAddress] at heq; omega
      rw [this]
    · rename_i hne
      exact ih (by rcases Nat.lt_succ_iff_lt_or_eq.mp hk with h | h; exact h; subst h; exact absurd rfl hne) (by omega)

end Sys2Proof.Machine
end

