-- ==== Sys2Proof/Laws/PerInstr.lean ====
section
/-!
SUPPORT. A law stated for every instruction and proved one instruction at a time: the word the encoder gives lies in the
instruction's own row of the opcode map (30_encoding R93, R94).
-/

namespace Sys2Proof.Laws

/-- The encoded word of the instruction matches the instruction's row, and that row is one of the 34 of 30_encoding
R94. -/
def EncodeRow.Statement (i : Instr) : Prop :=
  opcodeRow i ∈ opcodeRows ∧ encode i &&& (opcodeRow i).mask = (opcodeRow i).value

theorem EncodeRow.cls : EncodeRow.Statement .cls :=
  ⟨List.mem_of_getElem? (i := 0) rfl, rfl⟩

theorem EncodeRow.ret : EncodeRow.Statement .ret :=
  ⟨List.mem_of_getElem? (i := 1) rfl, rfl⟩

theorem EncodeRow.jp (nnn : Addr12) : EncodeRow.Statement (.jp nnn) :=
  ⟨List.mem_of_getElem? (i := 2) rfl, and_encodeAddr _ nnn⟩

theorem EncodeRow.call (nnn : Addr12) : EncodeRow.Statement (.call nnn) :=
  ⟨List.mem_of_getElem? (i := 3) rfl, and_encodeAddr _ nnn⟩

theorem EncodeRow.seImm (x : Reg) (nn : Byte) : EncodeRow.Statement (.seImm x nn) :=
  ⟨List.mem_of_getElem? (i := 4) rfl, and_encodeRegByte _ x nn⟩

theorem EncodeRow.sneImm (x : Reg) (nn : Byte) : EncodeRow.Statement (.sneImm x nn) :=
  ⟨List.mem_of_getElem? (i := 5) rfl, and_encodeRegByte _ x nn⟩

theorem EncodeRow.seReg (x : Reg) (y : Reg) : EncodeRow.Statement (.seReg x y) :=
  ⟨List.mem_of_getElem? (i := 6) rfl, and_encodeRegReg_low _ x y _⟩

theorem EncodeRow.ldImm (x : Reg) (nn : Byte) : EncodeRow.Statement (.ldImm x nn) :=
  ⟨List.mem_of_getElem? (i := 7) rfl, and_encodeRegByte _ x nn⟩

theorem EncodeRow.addImm (x : Reg) (nn : Byte) : EncodeRow.Statement (.addImm x nn) :=
  ⟨List.mem_of_getElem? (i := 8) rfl, and_encodeRegByte _ x nn⟩

theorem EncodeRow.ldReg (x : Reg) (y : Reg) : EncodeRow.Statement (.ldReg x y) :=
  ⟨List.mem_of_getElem? (i := 9) rfl, and_encodeRegReg_low _ x y _⟩

theorem EncodeRow.orReg (x : Reg) (y : Reg) : EncodeRow.Statement (.orReg x y) :=
  ⟨List.mem_of_getElem? (i := 10) rfl, and_encodeRegReg_low _ x y _⟩

theorem EncodeRow.andReg (x : Reg) (y : Reg) : EncodeRow.Statement (.andReg x y) :=
  ⟨List.mem_of_getElem? (i := 11) rfl, and_encodeRegReg_low _ x y _⟩

theorem EncodeRow.xorReg (x : Reg) (y : Reg) : EncodeRow.Statement (.xorReg x y) :=
  ⟨List.mem_of_getElem? (i := 12) rfl, and_encodeRegReg_low _ x y _⟩

theorem EncodeRow.addReg (x : Reg) (y : Reg) : EncodeRow.Statement (.addReg x y) :=
  ⟨List.mem_of_getElem? (i := 13) rfl, and_encodeRegReg_low _ x y _⟩

theorem EncodeRow.subReg (x : Reg) (y : Reg) : EncodeRow.Statement (.subReg x y) :=
  ⟨List.mem_of_getElem? (i := 14) rfl, and_encodeRegReg_low _ x y _⟩

theorem EncodeRow.shr (x : Reg) (y : Reg) : EncodeRow.Statement (.shr x y) :=
  ⟨List.mem_of_getElem? (i := 15) rfl, and_encodeRegReg_low _ x y _⟩

theorem EncodeRow.subnReg (x : Reg) (y : Reg) : EncodeRow.Statement (.subnReg x y) :=
  ⟨List.mem_of_getElem? (i := 16) rfl, and_encodeRegReg_low _ x y _⟩

theorem EncodeRow.shl (x : Reg) (y : Reg) : EncodeRow.Statement (.shl x y) :=
  ⟨List.mem_of_getElem? (i := 17) rfl, and_encodeRegReg_low _ x y _⟩

theorem EncodeRow.sneReg (x : Reg) (y : Reg) : EncodeRow.Statement (.sneReg x y) :=
  ⟨List.mem_of_getElem? (i := 18) rfl, and_encodeRegReg_low _ x y _⟩

theorem EncodeRow.ldI (nnn : Addr12) : EncodeRow.Statement (.ldI nnn) :=
  ⟨List.mem_of_getElem? (i := 19) rfl, and_encodeAddr _ nnn⟩

theorem EncodeRow.jpV0 (nnn : Addr12) : EncodeRow.Statement (.jpV0 nnn) :=
  ⟨List.mem_of_getElem? (i := 20) rfl, and_encodeAddr _ nnn⟩

theorem EncodeRow.rnd (x : Reg) (nn : Byte) : EncodeRow.Statement (.rnd x nn) :=
  ⟨List.mem_of_getElem? (i := 21) rfl, and_encodeRegByte _ x nn⟩

theorem EncodeRow.drw (x : Reg) (y : Reg) (n : Nibble) : EncodeRow.Statement (.drw x y n) :=
  ⟨List.mem_of_getElem? (i := 22) rfl, and_encodeRegReg _ x y n⟩

theorem EncodeRow.skp (x : Reg) : EncodeRow.Statement (.skp x) :=
  ⟨List.mem_of_getElem? (i := 23) rfl, and_encodeRegByte_low _ x _⟩

theorem EncodeRow.sknp (x : Reg) : EncodeRow.Statement (.sknp x) :=
  ⟨List.mem_of_getElem? (i := 24) rfl, and_encodeRegByte_low _ x _⟩

theorem EncodeRow.ldVxDt (x : Reg) : EncodeRow.Statement (.ldVxDt x) :=
  ⟨List.mem_of_getElem? (i := 25) rfl, and_encodeRegByte_low _ x _⟩

theorem EncodeRow.ldDtVx (x : Reg) : EncodeRow.Statement (.ldDtVx x) :=
  ⟨List.mem_of_getElem? (i := 26) rfl, and_encodeRegByte_low _ x _⟩

theorem EncodeRow.ldStVx (x : Reg) : EncodeRow.Statement (.ldStVx x) :=
  ⟨List.mem_of_getElem? (i := 27) rfl, and_encodeRegByte_low _ x _⟩

theorem EncodeRow.addI (x : Reg) : EncodeRow.Statement (.addI x) :=
  ⟨List.mem_of_getElem? (i := 28) rfl, and_encodeRegByte_low _ x _⟩

theorem EncodeRow.ldVxK (x : Reg) : EncodeRow.Statement (.ldVxK x) :=
  ⟨List.mem_of_getElem? (i := 29) rfl, and_encodeRegByte_low _ x _⟩

theorem EncodeRow.ldF (x : Reg) : EncodeRow.Statement (.ldF x) :=
  ⟨List.mem_of_getElem? (i := 30) rfl, and_encodeRegByte_low _ x _⟩

theorem EncodeRow.ldB (x : Reg) : EncodeRow.Statement (.ldB x) :=
  ⟨List.mem_of_getElem? (i := 31) rfl, and_encodeRegByte_low _ x _⟩

theorem EncodeRow.stRegs (x : Reg) : EncodeRow.Statement (.stRegs x) :=
  ⟨List.mem_of_getElem? (i := 32) rfl, and_encodeRegByte_low _ x _⟩

theorem EncodeRow.ldRegs (x : Reg) : EncodeRow.Statement (.ldRegs x) :=
  ⟨List.mem_of_getElem? (i := 33) rfl, and_encodeRegByte_low _ x _⟩

end Sys2Proof.Laws
end

