-- ==== Sys2Proof/Laws/Step.lean ====
section
/-!
SUPPORT. What a step can do, said once, and the effective CLOCK_HZ.
-/

namespace Sys2Proof.Machine

/-- CLOCK_HZ is at least 60 (00_scope R6, D6). -/
theorem clockHz_ge : 60 ≤ Config.clockHz := Nat.le_max_right _ _

/-- CYC stays below CLOCK_HZ (60_exceptions R251). -/
theorem nextCyc_lt (s : State) : nextCyc Config.clockHz s < Config.clockHz :=
  Nat.mod_lt _ (by have := clockHz_ge; omega)

/-- A cycle of a waiting machine is the poll after the tick (40_cycle R121). -/
theorem step_of_waiting {s : State} (hf : s.fault = none) (hw : s.waiting = true) :
    step s = .next (waitPoll (timerTick s)) := by
  simp [step, cycle, hf, runCycle, hw, waitingCycle]

/-- A cycle of a running machine is fetch, decode and execute after the tick (40_cycle R121). -/
theorem step_of_running {s : State} (hf : s.fault = none) (hw : s.waiting = false) :
    step s = fetchAndRun (timerTick s) := by
  simp [step, cycle, hf, runCycle, hw]

/-- The decoder answers an unknown word with that word (30_encoding R99). -/
theorem unknownOpcode_word {w w' : Word} (h : decode w = .unknownOpcode w') : w' = w := by
  revert h
  unfold decode decodeArithmetic decodeMisc
  repeat' split
  all_goals simp only [reduceCtorEq, Decoded.unknownOpcode.injEq, false_imp_iff]
  all_goals exact Eq.symm

/-- Everything a step can do (40_cycle R121): nothing, when faulted; a poll, while waiting; one instruction; or the skip
of an unknown word. -/
theorem step_cases {s t : State} (h : step s = .next t) :
    (s.fault ≠ none ∧ t = s) ∨
    (s.fault = none ∧ s.waiting = true ∧ t = waitPoll (timerTick s)) ∨
    (s.fault = none ∧ s.waiting = false ∧ ∃ i, decode (fetch s) = .instr i ∧ exec i (timerTick s) = .next t) ∨
    (s.fault = none ∧ s.waiting = false ∧ (∃ w, decode (fetch s) = .unknownOpcode w) ∧
      t = applyPcAction (timerTick s) .next) := by
  unfold step cycle at h
  cases hf : s.fault with
  | some k =>
    simp only [hf, faultedCycle] at h
    cases h
    exact .inl ⟨by simp, rfl⟩
  | none =>
    simp only [hf, runCycle, timerTick_waiting] at h
    cases hw : s.waiting with
    | true =>
      simp only [hw, waitingCycle] at h
      cases h
      exact .inr (.inl ⟨rfl, rfl, rfl⟩)
    | false =>
      simp only [hw, fetchAndRun, fetch_timerTick] at h
      cases hd : decode (fetch s) with
      | instr i =>
        simp only [hd] at h
        exact .inr (.inr (.inl ⟨rfl, rfl, i, rfl, h⟩))
      | unknownOpcode w =>
        simp only [hd, execUnknown, finish_eq_next] at h
        exact .inr (.inr (.inr ⟨rfl, rfl, ⟨w, rfl⟩, h⟩))

end Sys2Proof.Machine
end

