-- ==== Sys2Proof/Tests/Slice0.lean ====
section
/-!
SUPPORT. The package's own tests: ill-formed words refused check by check, one word written out from 30_encoding for each
instruction, single steps whose results come from 95_test_vectors (its vector id stands in each docstring), and one
witness for the hypotheses of each statement that has some, with a state at the boundary of each clause.
-/

namespace Sys2Proof.Tests

open Sys2Proof Sys2Proof.Machine

/-! ### Helpers -/

/-- The reset state with some registers written. -/
def withRegs (rs : List (Reg × Byte)) : State := rs.foldl (fun s p => setReg s p.1 p.2) State.reset

/-- The reset state with I set and some registers written. -/
def withIndex (i : Word) (rs : List (Reg × Byte)) : State := { withRegs rs with i := i }

/-- The reset state with the keys named down and one register written. -/
def withKeys (keys : List (Fin 16)) (rs : List (Reg × Byte)) : State :=
  keys.foldl (fun s k => hostSetKey s k true) (withRegs rs)

/-- The state with an instruction word at PC, high byte first. -/
def placed (w : Word) (s : State) : State := s.withFetchWord 16 w.toNat

/-- What a view reads of the next state, if the answer is one. -/
def view {α : Type} (f : State → α) (a : Answer) : Option α :=
  match a with
  | .next t => some (f t)
  | .fault _ => none
  | .refused _ => none

/-- What a view reads after one step on the word placed at PC. -/
def after {α : Type} (w : Word) (s : State) (f : State → α) : Option α := view f (step (placed w s))

/-! ### Well-formedness: one ill-formed word for each check (30_encoding R95) -/

theorem test_zero_row_refuses : Word.wellFormed 0x0123 = false ∧ Word.wellFormed 0x0000 = false := by decide

theorem test_register_skips_refuse : Word.wellFormed 0x5121 = false ∧ Word.wellFormed 0x912F = false := by decide

theorem test_arithmetic_refuses : Word.wellFormed 0x8128 = false ∧ Word.wellFormed 0x812F = false := by decide

theorem test_key_skips_refuse : Word.wellFormed 0xE1FF = false ∧ Word.wellFormed 0xE19F = false := by decide

theorem test_misc_refuses : Word.wellFormed 0xF1FF = false ∧ Word.wellFormed 0xF166 = false := by decide

theorem test_instructions_are_well_formed :
    Word.wellFormed 0x00EE = true ∧ Word.wellFormed 0x5120 = true ∧ Word.wellFormed 0x812E = true ∧
    Word.wellFormed 0xE1A1 = true ∧ Word.wellFormed 0xF165 = true ∧ Word.wellFormed 0xD010 = true := by decide

/-! ### Decode: one word for every instruction, written out from the patterns of 30_encoding R94 -/

theorem test_decode_control :
    decode 0x00EE = .instr .ret ∧ decode 0x1ABC = .instr (.jp 0xABC) ∧ decode 0x2300 = .instr (.call 0x300) ∧
    decode 0x3342 = .instr (.seImm 3 0x42) ∧ decode 0x4C07 = .instr (.sneImm 12 0x07) ∧
    decode 0x5120 = .instr (.seReg 1 2) ∧ decode 0x9AF0 = .instr (.sneReg 10 15) ∧
    decode 0xB123 = .instr (.jpV0 0x123) := by decide

theorem test_decode_arithmetic :
    decode 0x6A5C = .instr (.ldImm 10 0x5C) ∧ decode 0x7102 = .instr (.addImm 1 0x02) ∧
    decode 0x8120 = .instr (.ldReg 1 2) ∧ decode 0x8341 = .instr (.orReg 3 4) ∧ decode 0x8562 = .instr (.andReg 5 6) ∧
    decode 0x8783 = .instr (.xorReg 7 8) ∧ decode 0x89A4 = .instr (.addReg 9 10) ∧
    decode 0x8BC5 = .instr (.subReg 11 12) ∧ decode 0x8DE6 = .instr (.shr 13 14) ∧
    decode 0x8F07 = .instr (.subnReg 15 0) ∧ decode 0x812E = .instr (.shl 1 2) ∧
    decode 0xC10F = .instr (.rnd 1 0x0F) := by decide

theorem test_decode_index_memory :
    decode 0xA123 = .instr (.ldI 0x123) ∧ decode 0xF11E = .instr (.addI 1) ∧ decode 0xF229 = .instr (.ldF 2) ∧
    decode 0xF433 = .instr (.ldB 4) ∧ decode 0xFF55 = .instr (.stRegs 15) ∧ decode 0xF265 = .instr (.ldRegs 2) := by
  decide

theorem test_decode_display : decode 0x00E0 = .instr .cls ∧ decode 0xD237 = .instr (.drw 2 3 7) := by decide

theorem test_decode_keypad_timers :
    decode 0xE19E = .instr (.skp 1) ∧ decode 0xE2A1 = .instr (.sknp 2) ∧ decode 0xF307 = .instr (.ldVxDt 3) ∧
    decode 0xF015 = .instr (.ldDtVx 0) ∧ decode 0xF218 = .instr (.ldStVx 2) ∧ decode 0xF50A = .instr (.ldVxK 5) := by
  decide

theorem test_decode_unknown :
    decode 0x0000 = .unknownOpcode 0x0000 ∧ decode 0x5121 = .unknownOpcode 0x5121 ∧
    decode 0x912F = .unknownOpcode 0x912F ∧ decode 0x8128 = .unknownOpcode 0x8128 ∧
    decode 0xE1FF = .unknownOpcode 0xE1FF ∧ decode 0xF1FF = .unknownOpcode 0xF1FF := by decide

/-- The bytes of a word lie high byte first (20_memory R62). -/
theorem test_decode_bytes_in_memory_order : decodeBytes 0x6A 0x5C = .instr (.ldImm 10 0x5C) := by decide

theorem test_decode_table_word : decodeTableWord 16 0xD237 = some (.drw 2 3 7) ∧ decodeTableWord 16 0x8128 = none := by
  decide

/-! ### Control transfer (95_test_vectors 2.1) -/

/-- V-C1. -/
theorem test_jp : after 0x1ABC State.reset (·.pc) = some 0x0ABC := by decide

/-- V-C2. -/
theorem test_call :
    after 0x2300 { State.reset with pc := 0x204 } (fun t => (t.stack[0], t.sp, t.pc)) = some (0x0206, 1, 0x0300) := by
  decide

/-- V-C21: the pushed address wraps. -/
theorem test_call_pushes_wrapped :
    after 0x2300 { State.reset with pc := 0xFFFE } (fun t => (t.stack[0], t.sp, t.pc)) = some (0x0000, 1, 0x0300) := by
  decide

/-- V-C3. -/
theorem test_ret :
    after 0x00EE { State.reset with pc := 0x310, sp := 1, stack := State.reset.stack.set 0 0x0206 }
      (fun t => (t.sp, t.pc)) = some (0, 0x0206) := by decide

/-- V-C4. -/
theorem test_call_on_full_stack :
    after 0x2300 { State.reset with pc := 0x204, sp := 16 } (fun t => (t.pc, t.sp, t.fault)) =
      some (0x204, 16, some .stackOverflow) := by decide

/-- V-C5. -/
theorem test_ret_on_empty_stack :
    after 0x00EE State.reset (fun t => (t.pc, t.sp, t.fault)) = some (0x200, 0, some .stackUnderflow) := by decide

/-- V-C6: a faulted machine does nothing, and its cycle returns the fault. -/
theorem test_faulted_cycle :
    view (fun t => (t.dt, t.cyc, t.pc)) (step { State.reset with fault := some .stackUnderflow, dt := 5 }) =
      some (5, 0, 0x200) ∧
    cycleResult { State.reset with fault := some .stackUnderflow, dt := 5 } = .fault .stackUnderflow := by decide

/-- V-C7, V-C8. -/
theorem test_seImm :
    after 0x3342 (withRegs [(3, 0x42)]) (·.pc) = some 0x204 ∧ after 0x3343 (withRegs [(3, 0x42)]) (·.pc) = some 0x202 := by
  decide

/-- V-C20: a skip at the end of the address space wraps PC. -/
theorem test_seImm_wraps : after 0x3342 { withRegs [(3, 0x42)] with pc := 0xFFFE } (·.pc) = some 0x0002 := by decide

/-- V-C9, V-C10. -/
theorem test_sneImm :
    after 0x4342 (withRegs [(3, 0x42)]) (·.pc) = some 0x202 ∧ after 0x4300 (withRegs [(3, 0x42)]) (·.pc) = some 0x204 := by
  decide

/-- V-C11, V-C12. -/
theorem test_seReg :
    after 0x5120 (withRegs [(1, 7), (2, 7)]) (·.pc) = some 0x204 ∧
    after 0x5120 (withRegs [(1, 7), (2, 8)]) (·.pc) = some 0x202 := by decide

/-- V-C15, V-C16. -/
theorem test_sneReg :
    after 0x9120 (withRegs [(1, 7), (2, 8)]) (·.pc) = some 0x204 ∧
    after 0x9120 (withRegs [(1, 7), (2, 7)]) (·.pc) = some 0x202 := by decide

/-- V-C18. -/
theorem test_jpV0 : after 0xB300 (withRegs [(0, 0x10)]) (·.pc) = some 0x0310 := by decide

/-- V-C19: the sum is not masked to 12 bits. -/
theorem test_jpV0_unmasked : after 0xBFFF (withRegs [(0, 0xFF)]) (·.pc) = some 0x10FE := by decide

/-- V-C14: an unknown word is reported and skipped. -/
theorem test_unknown_word :
    after 0x5121 (withRegs [(1, 7), (2, 7)]) (fun t => (t.pc, reg t 1, t.fault)) = some (0x202, 7, none) ∧
    cycleResult (placed 0x5121 State.reset) = .unknownOpcode 0x200 0x5121 := by decide

/-! ### Arithmetic and logic (95_test_vectors 2.2) -/

/-- V-A1. -/
theorem test_ldImm : after 0x6A5C State.reset (fun t => (reg t 10, t.pc)) = some (0x5C, 0x202) := by decide

/-- V-A2: no flag. -/
theorem test_addImm_wraps :
    after 0x7102 (withRegs [(1, 0xFF), (15, 0x55)]) (fun t => (reg t 1, reg t 15)) = some (0x01, 0x55) := by decide

/-- V-A3: VF is an ordinary destination. -/
theorem test_addImm_vf : after 0x7F01 (withRegs [(15, 0x10)]) (fun t => reg t 15) = some 0x11 := by decide

/-- V-A4. -/
theorem test_ldReg : after 0x8120 (withRegs [(1, 3), (2, 9)]) (fun t => (reg t 1, reg t 2)) = some (9, 9) := by decide

/-- V-A5. -/
theorem test_orReg :
    after 0x8121 (withRegs [(1, 0x0F), (2, 0xF0), (15, 0x07)]) (fun t => (reg t 1, reg t 15)) = some (0xFF, 0x07) := by
  decide

/-- V-A6. -/
theorem test_andReg :
    after 0x8122 (withRegs [(1, 0x0F), (2, 0x3C), (15, 0x07)]) (fun t => (reg t 1, reg t 15)) = some (0x0C, 0x07) := by
  decide

/-- V-A7. -/
theorem test_xorReg :
    after 0x8123 (withRegs [(1, 0x0F), (2, 0x3C), (15, 0x07)]) (fun t => (reg t 1, reg t 15)) = some (0x33, 0x07) := by
  decide

/-- V-A10, V-A11: 255 is no carry. -/
theorem test_addReg :
    after 0x8124 (withRegs [(1, 0xFF), (2, 0x01)]) (fun t => (reg t 1, reg t 15)) = some (0x00, 1) ∧
    after 0x8124 (withRegs [(1, 0x7F), (2, 0x80)]) (fun t => (reg t 1, reg t 15)) = some (0xFF, 0) := by decide

/-- V-A12, V-A13: the flag is written last, from VF's old value. -/
theorem test_addReg_vf :
    after 0x8F24 (withRegs [(15, 0xFF), (2, 0x01)]) (fun t => reg t 15) = some 1 ∧
    after 0x81F4 (withRegs [(1, 0x10), (15, 0x20)]) (fun t => (reg t 1, reg t 15)) = some (0x30, 0) := by decide

/-- V-A16, V-A17. -/
theorem test_subReg :
    after 0x8125 (withRegs [(1, 0x05), (2, 0x0A)]) (fun t => (reg t 1, reg t 15)) = some (0xFB, 0) ∧
    after 0x8125 (withRegs [(1, 0x33), (2, 0x33)]) (fun t => (reg t 1, reg t 15)) = some (0x00, 1) := by decide

/-- V-A18: the flag is written last. -/
theorem test_subReg_vf : after 0x8F25 (withRegs [(15, 0x03), (2, 0x05)]) (fun t => reg t 15) = some 0 := by decide

/-- V-A19, V-A20: y is ignored. -/
theorem test_shr :
    after 0x8106 (withRegs [(1, 0x05)]) (fun t => (reg t 1, reg t 15)) = some (0x02, 1) ∧
    after 0x8126 (withRegs [(1, 0x04), (2, 0xFF)]) (fun t => (reg t 1, reg t 2, reg t 15)) = some (0x02, 0xFF, 0) := by
  decide

/-- V-A21: the flag is written last. -/
theorem test_shr_vf : after 0x8F06 (withRegs [(15, 0x03)]) (fun t => reg t 15) = some 1 := by decide

/-- V-A22, V-A23: the other order of the operands. -/
theorem test_subnReg :
    after 0x8127 (withRegs [(1, 0x0A), (2, 0x05)]) (fun t => (reg t 1, reg t 15)) = some (0xFB, 0) ∧
    after 0x8127 (withRegs [(1, 0x05), (2, 0x0A)]) (fun t => (reg t 1, reg t 15)) = some (0x05, 1) := by decide

/-- V-A25, V-A26. -/
theorem test_shl :
    after 0x810E (withRegs [(1, 0x81)]) (fun t => (reg t 1, reg t 15)) = some (0x02, 1) ∧
    after 0x810E (withRegs [(1, 0x40)]) (fun t => (reg t 1, reg t 15)) = some (0x80, 0) := by decide

/-- V-A27: the flag is written last. -/
theorem test_shl_vf : after 0x8F0E (withRegs [(15, 0x80)]) (fun t => reg t 15) = some 1 := by decide

/-- V-A28, V-A30: a drawn byte masked by the immediate. -/
theorem test_rnd_masks :
    view (fun t => (reg t 1, t.pc)) (rndOf 0xAB 1 0x0F State.reset) = some (0x0B, 0x202) ∧
    view (fun t => reg t 1) (rndOf 0x5A 1 0xFF State.reset) = some 0x5A := by decide

/-- V-A29: whatever is drawn. -/
theorem test_rnd_zero_mask : after 0xC100 State.reset (fun t => (reg t 1, t.draws)) = some (0x00, 1) := by
  show some ((_ &&& 0#8 : Byte), 1) = some (0x00, 1)
  rw [BitVec.and_zero]
  rfl

/-! ### Index register and memory (95_test_vectors 2.3) -/

/-- V-M1. -/
theorem test_ldI : after 0xA123 State.reset (·.i) = some 0x0123 := by decide

/-- V-M2, V-M3: no flag at 0x1000, a carry at 0x10000. -/
theorem test_addI :
    after 0xF11E (withIndex 0x0FFF [(1, 0x01), (15, 9)]) (fun t => (t.i, reg t 15)) = some (0x1000, 0) ∧
    after 0xF11E (withIndex 0xFFFF [(1, 0x02)]) (fun t => (t.i, reg t 15)) = some (0x0001, 1) := by decide

/-- V-M4: VF is read before it is written. -/
theorem test_addI_vf : after 0xFF1E (withIndex 0x0010 [(15, 0x05)]) (fun t => (t.i, reg t 15)) = some (0x0015, 0) := by
  decide

/-- V-M7: not masked to the low nibble. -/
theorem test_ldF : after 0xF129 (withRegs [(1, 0xFF)]) (·.i) = some 0x04FB := by decide

/-- E6. -/
theorem test_ldB :
    after 0xF433 (withIndex 0x300 [(4, 156)]) (fun t => (memRead t 0x300, memRead t 0x301, memRead t 0x302, t.i)) =
      some (1, 5, 6, 0x300) := by decide

/-- V-M10: each address wraps on its own. -/
theorem test_ldB_wraps :
    after 0xF133 (withIndex 0x0FFE [(1, 123)]) (fun t => (memRead t 0xFFE, memRead t 0xFFF, memRead t 0x000, t.i)) =
      some (1, 2, 3, 0x0FFE) := by decide

/-- V-M11: only V0; I is unchanged. -/
theorem test_stRegs :
    after 0xF055 (withIndex 0x300 [(0, 0x11), (1, 0x22)]) (fun t => (memRead t 0x300, memRead t 0x301, t.i)) =
      some (0x11, 0x00, 0x300) := by decide

/-- V-M15: addresses modulo 4096. -/
theorem test_stRegs_wraps : after 0xF055 (withIndex 0x1FFF [(0, 0xAA)]) (fun t => memRead t 0xFFF) = some 0xAA := by
  decide

/-- V-M13: only V0. -/
theorem test_ldRegs :
    after 0xF065 (hostLoad (withIndex 0x300 [(1, 0x77)]) 0x300 [0x10, 0x11]) (fun t => (reg t 0, reg t 1, t.i)) =
      some (0x10, 0x77, 0x300) := by decide

/-- V-M14 at its ends: VF is loaded too. -/
theorem test_ldRegs_all :
    after 0xFF65 (hostLoad (withIndex 0x300 []) 0x300
      [0x10, 0x11, 0x12, 0x13, 0x14, 0x15, 0x16, 0x17, 0x18, 0x19, 0x1A, 0x1B, 0x1C, 0x1D, 0x1E, 0x1F])
      (fun t => (reg t 0, reg t 14, reg t 15)) = some (0x10, 0x1E, 0x1F) := by decide

/-! ### Display (95_test_vectors 2.4) -/

/-- V-D1. -/
theorem test_cls :
    after 0x00E0 (setFb (withRegs [(15, 7)]) (fbSet (fbSet fbClear 3 4 true) 63 31 true))
      (fun t => (pixel t 3 4, pixel t 63 31, reg t 15)) = some (false, false, 7) := by decide

/-- V-D6: both coordinates wrap. -/
theorem test_drw_wraps :
    after 0xD232 (hostLoad (withIndex 0x300 [(2, 62), (3, 31)]) 0x300 [0xF0, 0x90])
      (fun t => ([pixel t 62 31, pixel t 63 31, pixel t 0 31, pixel t 1 31, pixel t 62 0, pixel t 1 0],
        [pixel t 63 0, pixel t 0 0, pixel t 2 31], reg t 15)) =
      some ([true, true, true, true, true, true], [false, false, false], 0) := by decide

/-- V-D4: a lit pixel turned off is a collision. -/
theorem test_drw_collides :
    after 0xD011 (hostLoad (setFb (withIndex 0x300 []) (fbSet fbClear 1 0 true)) 0x300 [0xC0])
      (fun t => (pixel t 0 0, pixel t 1 0, reg t 15)) = some (true, false, 1) := by decide

/-! ### Timers and keypad (95_test_vectors 2.5) -/

/-- V-K1, V-K2. -/
theorem test_skp :
    after 0xE19E (withKeys [5] [(1, 5)]) (·.pc) = some 0x204 ∧ after 0xE19E (withKeys [] [(1, 5)]) (·.pc) = some 0x202 := by
  decide

/-- V-K3, V-K4. -/
theorem test_sknp :
    after 0xE1A1 (withKeys [] [(1, 5)]) (·.pc) = some 0x204 ∧ after 0xE1A1 (withKeys [5] [(1, 5)]) (·.pc) = some 0x202 := by
  decide

/-- V-K6: the wait is entered and PC advances at once. -/
theorem test_ldVxK :
    after 0xF50A (withKeys [2, 9] []) (fun t => (t.waiting, t.waitDest, t.pc, reg t 5)) = some (true, 5, 0x202, 0) := by
  decide

/-- V-K6: the poll takes the least key down. -/
theorem test_wait_poll_takes_least_key :
    view (fun t => (reg t 5, t.waiting, t.pc)) (step { withKeys [2, 9] [] with waiting := true, waitDest := 5 }) =
      some (2, false, 0x200) := by decide

/-- V-K8: the destination may be VF. -/
theorem test_wait_poll_vf :
    view (fun t => (reg t 15, t.waiting)) (step { withKeys [0xC] [] with waiting := true, waitDest := 15 }) =
      some (0x0C, false) := by decide

/-- V-T1, V-T5: N = 1, every tick counts down. -/
theorem test_tick_every_cycle :
    (timerTickWith 60 { State.reset with dt := 3 }).dt = 2 ∧ (timerTickWith 100 { State.reset with dt := 5 }).dt = 4 := by
  decide

/-- V-T4: no decrement at the 7th tick, one at the 8th. -/
theorem test_tick_divider :
    (timerTickWith 500 { State.reset with dt := 9, cyc := 6 }).dt = 9 ∧
    (timerTickWith 500 { State.reset with dt := 9, cyc := 7 }).dt = 8 := by decide

/-- V-T3: CYC wraps to 0 at CLOCK_HZ, and 0 is a multiple of N. -/
theorem test_tick_wraps :
    (timerTickWith 500 { State.reset with dt := 9, cyc := 499 }).cyc = 0 ∧
    (timerTickWith 500 { State.reset with dt := 9, cyc := 499 }).dt = 8 := by decide

/-- V-T6. -/
theorem test_tick_saturates :
    (timerTickWith 60 State.reset).dt = 0 ∧ (timerTickWith 60 State.reset).st = 0 := by decide

/-- V-T7: the value read is the one after the tick. -/
theorem test_ldVxDt :
    view (fun t => reg t 3) (fetchAndRun (timerTickWith 60 (placed 0xF307 { State.reset with dt := 5 }))) = some 4 := by
  decide

/-- V-T8: the value written is not ticked in its cycle. -/
theorem test_ldDtVx : after 0xF015 (withRegs [(0, 5)]) (fun t => (t.dt, t.pc)) = some (5, 0x202) := by decide

/-- V-T9. -/
theorem test_ldStVx : after 0xF218 (withRegs [(2, 0x10)]) (fun t => (t.st, t.pc)) = some (0x10, 0x202) := by decide

/-! ### Reset and the host -/

/-- V-R1: from a faulted and lit machine. -/
theorem test_host_reset :
    hostReset { withRegs [(1, 7)] with fault := some .stackOverflow, pc := 0x300, waitDest := 3 } = State.reset := by
  decide

/-- V-R2: the machine with nothing loaded reports an unknown word and goes on. -/
theorem test_unloaded_machine :
    cycleResult State.reset = .unknownOpcode 0x200 0x0000 ∧ view (·.pc) (step State.reset) = some 0x202 := by decide

/-- Writing the value an unlisted address reads as removes the cell (log 7). -/
theorem test_memory_is_canonical :
    (memWrite (memWrite (memWrite State.reset 0x301 5) 0x300 4) 0x301 0).mem = [(0x300, 4)] := by decide

/-! ### Witnesses: the hypotheses of each statement met together -/

theorem witness_EncodingADecodedWordGivesItBack : decode 0x6A5C = .instr (.ldImm 10 0x5C) := by decide

theorem witness_DecoderAgreesWithTheMaskTable :
    (⟨0xF00F, 0x8006⟩ : OpcodeRow) ∈ opcodeRows ∧ OpcodeRow.hits ⟨0xF00F, 0x8006⟩ 0x8DE6 = true ∧
    decode 0x8DE6 = .instr (.shr 13 14) := by decide

theorem witness_UnknownWordsAreThoseOfTheTable : decode 0x8128 = .unknownOpcode 0x8128 := by decide

theorem witness_StepRunsTheDecodedInstruction :
    (placed 0x8124 State.reset).fault = none ∧ (placed 0x8124 State.reset).waiting = false ∧
    decode (wordOfBytes (memRead (placed 0x8124 State.reset) (placed 0x8124 State.reset).pc.toNat)
      (memRead (placed 0x8124 State.reset) ((placed 0x8124 State.reset).pc.toNat + 1))) = .instr (.addReg 1 2) := by
  decide

/-- A machine about to store: its memory, CYC and control state meet the invariant. -/
theorem storing_inv : (placed 0xF055 (withIndex 0x300 [(0, 0x11)])).Inv :=
  ⟨by decide, Nat.lt_of_lt_of_le (by decide : 0 < 60) (Nat.le_max_right _ _), fun _ => by decide⟩

/-- A faulted machine meets the invariant too. -/
theorem faulted_inv : State.Inv { State.reset with fault := some .stackOverflow } :=
  ⟨by decide, Nat.lt_of_lt_of_le (by decide : 0 < 60) (Nat.le_max_right _ _), fun _ => by decide⟩

theorem witness_EveryStepKeepsTheInvariant :
    ∃ s t : State, s.Inv ∧ step s = .next t ∧ t.mem ≠ s.mem :=
  ⟨_, _, storing_inv, rfl, by decide⟩

theorem witness_HostOperationsKeepTheInvariant : ∃ s : State, s.Inv ∧ s.mem ≠ [] := ⟨_, storing_inv, by decide⟩

theorem witness_FaultedMachineChangesNothing :
    ({ State.reset with fault := some .stackOverflow, dt := 5 } : State).fault = some .stackOverflow := by decide

theorem witness_FatalFaultsComeOnlyFromCallAndReturn_call :
    ∃ t, ({ State.reset with sp := 16 } : State).fault = none ∧
      exec (.call 0x300) { State.reset with sp := 16 } = .next t ∧ t.fault = some .stackOverflow :=
  ⟨_, by decide, rfl, by decide⟩

theorem witness_FatalFaultsComeOnlyFromCallAndReturn_ret :
    ∃ t, State.reset.fault = none ∧ exec .ret State.reset = .next t ∧ t.fault = some .stackUnderflow :=
  ⟨_, by decide, rfl, by decide⟩

/-- With no key down. -/
theorem witness_WaitingCycleTakesTheLeastKeyDown_none :
    ({ State.reset with waiting := true } : State).fault = none ∧
    ({ State.reset with waiting := true } : State).waiting = true ∧ ¬ someKeyDown { State.reset with waiting := true } := by
  refine ⟨by decide, by decide, ?_⟩
  rintro ⟨k, hk⟩
  revert k
  decide

/-- With the greatest key alone down, and with two keys down. -/
theorem witness_WaitingCycleTakesTheLeastKeyDown_some :
    ((withKeys [15] []).key[15] = true ∧ ∀ j : Fin 16, j < 15 → (withKeys [15] []).key[j.val] = false) ∧
    ((withKeys [2, 9] []).key[2] = true ∧ ∀ j : Fin 16, j < 2 → (withKeys [2, 9] []).key[j.val] = false) ∧
    ({ withKeys [2, 9] [] with waiting := true } : State).waiting = true ∧ (withKeys [2, 9] []).fault = none := by decide

theorem witness_UnknownWordIsReportedAndSkipped :
    (placed 0x0123 State.reset).fault = none ∧ (placed 0x0123 State.reset).waiting = false ∧
    decode (fetch (placed 0x0123 State.reset)) = .unknownOpcode 0x0123 := by decide

/-- Both branches of the divider, and a requested value that is not clamped is possible only where it is at least 60. -/
theorem witness_TimerTickFollowsTheDivider :
    (7 + 1) % 500 % (500 / 60) = 0 ∧ (6 + 1) % 500 % (500 / 60) ≠ 0 ∧ (60 ≤ Config.requestedClockHz ∨
      Config.clockHz = 60) := by
  refine ⟨by decide, by decide, ?_⟩
  rcases Nat.le_total 60 Config.requestedClockHz with h | h
  · exact .inl h
  · exact .inr (Nat.max_eq_right h)

theorem witness_TimersSaturateAtZero :
    0 < ({ State.reset with dt := 1, st := 0xFF } : State).dt.toNat ∧
    0 < ({ State.reset with dt := 1, st := 0xFF } : State).st.toNat ∧ State.reset.dt = 0 ∧ State.reset.st = 0 := by decide

theorem witness_FirstDecrementIsAtTheNthTick : 60 ≤ 500 ∧ State.reset.cyc = 0 ∧ 7 < 500 / 60 := by decide

theorem witness_CycleResultReportsTheCycle :
    (∃ t, step (placed 0x00EE State.reset) = .next t ∧ t.fault = some .stackUnderflow) ∧
    (∃ t, step (placed 0x0123 State.reset) = .next t ∧
      decode (fetch (placed 0x0123 State.reset)) = .unknownOpcode (fetch (placed 0x0123 State.reset))) :=
  ⟨⟨_, rfl, by decide⟩, ⟨_, rfl, by decide⟩⟩

/-- A transition into each state from each state that has one. -/
theorem witness_ControlStatesFollowTheTable :
    (∃ s t, step s = .next t ∧ controlState s = .running ∧ controlState t = .waiting) ∧
    (∃ s t, step s = .next t ∧ controlState s = .running ∧ controlState t = .faulted) ∧
    (∃ s t, step s = .next t ∧ controlState s = .waiting ∧ controlState t = .running) ∧
    (∃ s t, step s = .next t ∧ controlState s = .waiting ∧ controlState t = .waiting) ∧
    (∃ s t, step s = .next t ∧ controlState s = .faulted ∧ t = s) :=
  ⟨⟨placed 0xF50A State.reset, _, rfl, by decide, by decide⟩, ⟨placed 0x00EE State.reset, _, rfl, by decide, by decide⟩,
    ⟨{ withKeys [7] [] with waiting := true }, _, rfl, by decide, by decide⟩,
    ⟨{ State.reset with waiting := true }, _, rfl, by decide, by decide⟩,
    ⟨{ State.reset with fault := some .stackOverflow }, _, rfl, by decide, rfl⟩⟩

theorem witness_InstructionsWriteOnlyTheirParts : ∃ t, exec (.drw 0 1 1) State.reset = .next t := ⟨_, rfl⟩

theorem witness_RegistersChangeOnlyIfNamedOrFlag :
    ∃ t, exec (.addReg 1 2) (withRegs [(3, 9)]) = .next t ∧ ¬ namesDestination (.addReg 1 2) 3 ∧
      ¬ (definesFlag (.addReg 1 2) = true ∧ (3 : Reg) = vf) :=
  ⟨_, rfl, by show ¬ (3 : Reg) = 1; decide, by decide⟩

/-- The last depth with room, and the full stack. -/
theorem witness_CallPushesTheReturnAddress :
    ({ State.reset with sp := 15 } : State).sp.val < 16 ∧ ({ State.reset with sp := 16 } : State).sp.val = 16 := by decide

/-- The full stack, one entry, and the empty stack. -/
theorem witness_ReturnPopsTheReturnAddress :
    0 < ({ State.reset with sp := 16 } : State).sp.val ∧ 0 < ({ State.reset with sp := 1 } : State).sp.val ∧
    State.reset.sp.val = 0 := by decide

theorem witness_ReturnUndoesCall :
    ∃ t, ({ State.reset with sp := 15 } : State).sp.val < 16 ∧
      exec (.call 0x300) { State.reset with sp := 15 } = .next t :=
  ⟨_, by decide, rfl⟩

theorem witness_StackRoundTrip : ({ State.reset with sp := 14 } : State).sp.val ≤ 14 := by decide

/-- Skips taken and not taken, and a last digit that is not 0. -/
theorem witness_SkipsCompare :
    reg (withRegs [(1, 7), (2, 7)]) 1 = reg (withRegs [(1, 7), (2, 7)]) 2 ∧
    reg (withRegs [(1, 7), (2, 8)]) 1 ≠ reg (withRegs [(1, 7), (2, 8)]) 2 ∧ (15 : Nibble) ≠ 0 := by decide

/-- Both flags, and a destination other than VF. -/
theorem witness_AddSetsCarryLast :
    (1 : Reg) ≠ vf ∧ (reg (withRegs [(1, 0xFF), (2, 1)]) 1).toNat + (reg (withRegs [(1, 0xFF), (2, 1)]) 2).toNat > 255 ∧
    ¬ (reg (withRegs [(1, 0x7F), (2, 0x80)]) 1).toNat + (reg (withRegs [(1, 0x7F), (2, 0x80)]) 2).toNat > 255 := by
  decide

/-- Both flags, and a destination other than VF. -/
theorem witness_SubtractSetsNotBorrowLast :
    (1 : Reg) ≠ vf ∧ (reg (withRegs [(1, 5), (2, 5)]) 1).toNat ≥ (reg (withRegs [(1, 5), (2, 5)]) 2).toNat ∧
    ¬ (reg (withRegs [(1, 5), (2, 6)]) 1).toNat ≥ (reg (withRegs [(1, 5), (2, 6)]) 2).toNat := by decide

/-- Both flags, and a destination other than VF. -/
theorem witness_ReverseSubtractSetsNotBorrowLast :
    (1 : Reg) ≠ vf ∧ (reg (withRegs [(1, 5), (2, 5)]) 2).toNat ≥ (reg (withRegs [(1, 5), (2, 5)]) 1).toNat ∧
    ¬ (reg (withRegs [(1, 6), (2, 5)]) 2).toNat ≥ (reg (withRegs [(1, 6), (2, 5)]) 1).toNat := by decide

theorem witness_ShiftsSetTheBitShiftedOut : (1 : Reg) ≠ vf ∧ (2 : Reg) ≠ 1 ∧ (2 : Reg) ≠ vf := by decide

/-- A bit clear in the immediate, and the full immediate. -/
theorem witness_RandomByteIsMasked : (0x0F : Byte).getLsbD 4 = false ∧ (0xFF : Byte) = 0xFF := by decide

/-- Both flags, at the carry boundary. -/
theorem witness_AddToIndexSetsCarryLast :
    (0 : Reg) ≠ vf ∧ (withIndex 0xFFFF [(1, 1)]).i.toNat + (reg (withIndex 0xFFFF [(1, 1)]) 1).toNat > 0xFFFF ∧
    ¬ (withIndex 0xFFFF [(1, 0)]).i.toNat + (reg (withIndex 0xFFFF [(1, 0)]) 1).toNat > 0xFFFF := by decide

/-- The three stored bytes across the end of memory, and an address that is none of them. -/
theorem witness_BcdStoresThreeDigits :
    (withIndex 0x0FFE [(1, 123)]).mem.wf = true ∧
    ∀ k < 3, effectiveAddress (withIndex 0x0FFE [(1, 123)]) k % 4096 ≠ 1 % 4096 := by decide

/-- All sixteen registers across the end of memory, and an address that none of them goes to. -/
theorem witness_StoreRegistersWritesTheRange :
    (withIndex 0x0FF8 []).mem.wf = true ∧ (15 : Reg) ≤ 15 ∧
    ∀ k : Reg, k ≤ 15 → effectiveAddress (withIndex 0x0FF8 []) k.val % 4096 ≠ 8 % 4096 := by decide

theorem witness_LoadRegistersReadsTheRange : (2 : Reg) ≤ 2 ∧ ¬ (3 : Reg) ≤ 2 := by decide

/-- A store over the word that follows it: V0 becomes its high byte, V1 its low byte. -/
theorem witness_StoredBytesAreFetched :
    ∃ t, (withIndex 0x202 [(0, 0x12), (1, 0x34)]).mem.wf = true ∧
      exec (.stRegs 1) (withIndex 0x202 [(0, 0x12), (1, 0x34)]) = .next t ∧ (0 : Reg) ≤ 1 ∧ (1 : Reg) ≤ 1 ∧
      t.pc.toNat % 4096 = effectiveAddress (withIndex 0x202 [(0, 0x12), (1, 0x34)]) 0 % 4096 ∧
      (t.pc.toNat + 1) % 4096 = effectiveAddress (withIndex 0x202 [(0, 0x12), (1, 0x34)]) 1 % 4096 :=
  ⟨_, by decide, rfl, by decide, by decide, by decide, by decide⟩

theorem witness_MemoriesThatReadAlikeAreEqual :
    ∃ m₁ m₂ : Memory, m₁ ≠ [] ∧ m₁.wf = true ∧ m₂.wf = true ∧ ∀ a, cellsRead m₁ a = cellsRead m₂ a :=
  ⟨[(0, 1), (4095, 2)], [(0, 1), (4095, 2)], by decide, by decide, by decide, fun _ => rfl⟩

/-- A covered pixel that wraps past both edges, and one that is not covered. -/
theorem witness_DrawFlipsTheCoveredPixels :
    spriteCovers 62 31 [0xF0, 0x90] 1 0 ∧ ¬ spriteCovers 62 31 [0xF0, 0x90] 0 0 := by
  refine ⟨⟨1, 3, 0x90, by decide, by decide, by decide, by decide, by decide⟩, ?_⟩
  rintro ⟨r, b, row, hrow, hb, hbit, hx, hy⟩
  obtain rfl : r = 1 := by
    have := (List.getElem?_eq_some_iff.mp hrow).1
    simp at this
    omega
  obtain rfl : b = 2 := by omega
  simp at hrow
  subst hrow
  revert hbit
  decide

/-- The longest sprite, over a clear display. -/
theorem witness_DrawingTwiceRestoresTheDisplay :
    ∃ (fb : Framebuffer) (rows : List Byte), rows.length ≤ 15 ∧ rows.length = 15 ∧ spriteCovers 0 0 rows 0 14 ∧
      ∀ px py, spriteCovers 0 0 rows px py → fbGet fb px py = false :=
  ⟨fbClear, List.replicate 15 0x80, by decide, by decide,
    ⟨14, 0, 0x80, by decide, by decide, by decide, by decide, by decide⟩, fun px py _ => by simp [fbClear, fbGet]⟩

/-- The last index of a key, and the first above. -/
theorem witness_KeySkipsReadTheKey :
    (reg (withRegs [(1, 15)]) 1).toNat < 16 ∧ 16 ≤ (reg (withRegs [(1, 16)]) 1).toNat := by decide

theorem witness_TimerTransfersMoveBytes :
    (placed 0xF307 State.reset).fault = none ∧ (placed 0xF307 State.reset).waiting = false ∧
    decode (fetch (placed 0xF307 State.reset)) = .instr (.ldVxDt 3) ∧
    decode (fetch (placed 0xF315 State.reset)) = .instr (.ldDtVx 3) ∧
    decode (fetch (placed 0xF318 State.reset)) = .instr (.ldStVx 3) := by decide

/-- The longest image that does not come round to the entry point, and an image whose word is an instruction. -/
theorem witness_FirstCycleRunsTheWordAtTheEntryPoint :
    (List.replicate 4094 (0 : Byte)).length ≤ 4094 ∧ decodeBytes 0x60 0x0A = .instr (.ldImm 0 0x0A) :=
  ⟨by rw [List.length_replicate], by decide⟩

/-- An image across the end of memory, and an address it does not reach. -/
theorem witness_HostLoadCopiesBytes :
    (hostReset State.reset).mem.wf = true ∧
    (∀ j, 1 < j → j < [1, 2, 3].length → ((0xFFF : Word).toNat + j) % 4096 ≠ ((0xFFF : Word).toNat + 1) % 4096) ∧
    (∀ k < [1, 2, 3].length, ((0xFFF : Word).toNat + k) % 4096 ≠ 2 % 4096) := by
  refine ⟨by decide, fun j h1 h2 => ?_, by decide⟩
  obtain rfl : j = 2 := by simp at h2; omega
  decide

theorem witness_HostSetKeyChangesOneKey : (15 : Fin 16) ≠ 14 := by decide

theorem witness_NoInstructionReadsSoundTimerOrCycleCounter :
    (∃ t, exec (.ldVxDt 1) State.reset = .next t ∧ ∀ x, (.ldVxDt 1 : Instr) ≠ .ldStVx x) ∧
    (∃ t, exec (.ldStVx 1) State.reset = .next t ∧ ∃ x, (.ldStVx 1 : Instr) = .ldStVx x) :=
  ⟨⟨_, rfl, by decide⟩, ⟨_, rfl, 1, rfl⟩⟩

/-- Two machines one call deep that differ in the entry above the top, about to return. -/
theorem witness_EntriesAboveTheTopAreNeverRead :
    ∃ s₁ s₂ t₁ : State, agreeBelowTop s₁ s₂ ∧ s₁ ≠ s₂ ∧ step s₁ = .next t₁ ∧ t₁.sp = 0 :=
  ⟨placed 0x00EE { State.reset with sp := 1 },
    { placed 0x00EE { State.reset with sp := 1 } with stack := State.reset.stack.set 1 7 }, _,
    ⟨by decide, by decide⟩, by decide, rfl, by decide⟩

end Sys2Proof.Tests
end

section
/-!
Jumps and register skips (41_control).  First what the parts do (decode after encode, the PC actions, the operands of a
jump, the meanings of the four skips), then the obligations, each assembled from them.
-/

namespace Sys2Proof.Machine

/-! ### Decode after encode -/

/-- No bit of an encoding is lost: every instruction is read back from its own word (30_encoding R91, R94). -/
theorem decode_encode (i : Instr) : decode (encode i) = .instr i := by
  cases i with
  | cls | ret => rfl
  | _ => simp [encode, decode, decodeArithmetic, decodeMisc]

/-- The last digit of `5xy0` and `9xy0` is literal: with any other digit the word is unknown (41_control R145, R146, D11). -/
theorem decode_encodeRegReg_of_ne {i n : Nibble} (hi : i = 0x5 ∨ i = 0x9) (x y : Reg) (hn : n ≠ 0) :
    decode (encodeRegReg i x y n) = .unknownOpcode (encodeRegReg i x y n) := by
  obtain rfl | rfl := hi
  · simpa [decode] using hn
  · simpa [decode] using hn

/-! ### PC actions -/

/-- A PC action writes PC and no other part (40_cycle R126). -/
theorem unchangedExcept_applyPcAction (s : State) (a : PcAction) : unchangedExcept [.pc] s (applyPcAction s a) := by
  intro p hp
  cases p with
  | pc => exact absurd List.mem_cons_self hp
  | v | stack | mem | key => exact fun _ => rfl
  | fb => exact fun _ _ => rfl
  | _ => rfl

/-- A handler with a PC action and no writes of its own completes and changes only PC (40_cycle R126, R128). -/
theorem finish_spec (s : State) (a : PcAction) :
    ∃ t, finish s a = .next t ∧ t.pc = pcAfter a s.pc ∧ unchangedExcept [.pc] s t :=
  ⟨applyPcAction s a, rfl, rfl, unchangedExcept_applyPcAction s a⟩

/-- The fetch after a PC action reads the unchanged memory at the new PC and the byte after it (40_cycle R123). -/
theorem fetch_applyPcAction (s : State) (a : PcAction) :
    fetch (applyPcAction s a) =
      wordOfBytes (memRead s (pcAfter a s.pc).toNat) (memRead s ((pcAfter a s.pc).toNat + 1)) := rfl

/-! ### Operands of a jump -/

/-- The address operand is zero-extended (30_encoding R92). -/
@[simp] theorem toNat_addrOperand (nnn : Addr12) : (addrOperand nnn).toNat = nnn.toNat :=
  BitVec.toNat_setWidth_of_le (by decide)

/-- The byte operand is zero-extended (41_control R147). -/
@[simp] theorem toNat_byteOperand (b : Byte) : (byteOperand b).toNat = b.toNat :=
  BitVec.toNat_setWidth_of_le (by decide)

/-- A byte and a 12-bit address add up without a carry out of 16 bits, so no bit of the sum is lost (41_control R147). -/
theorem toNat_byteOperand_add_addrOperand (b : Byte) (nnn : Addr12) :
    (byteOperand b + addrOperand nnn).toNat = b.toNat + nnn.toNat := by
  have hb := b.isLt
  have hn := nnn.isLt
  rw [BitVec.toNat_add, toNat_byteOperand, toNat_addrOperand]
  exact Nat.mod_eq_of_lt (by omega)

/-! ### The meanings of the four skips -/

theorem exec_seImm (x : Reg) (nn : Byte) (s : State) : exec (.seImm x nn) s = finish s (.skip (reg s x == nn)) := rfl

theorem exec_sneImm (x : Reg) (nn : Byte) (s : State) : exec (.sneImm x nn) s = finish s (.skip (reg s x != nn)) :=
  congrArg (fun c => finish s (.skip c)) decide_not

theorem exec_seReg (x y : Reg) (s : State) : exec (.seReg x y) s = finish s (.skip (reg s x == reg s y)) := rfl

theorem exec_sneReg (x y : Reg) (s : State) : exec (.sneReg x y) s = finish s (.skip (reg s x != reg s y)) :=
  congrArg (fun c => finish s (.skip c)) decide_not

/-! ### The obligations -/

/-- Settles O29: the sum has no carry out of 16 bits, and the fetch of the next word reduces both its addresses. -/
theorem indexedJumpAddsV0 : Obligations.IndexedJumpAddsV0 := by
  intro s nnn
  have hsum := toNat_byteOperand_add_addrOperand (reg s 0) nnn
  refine ⟨decode_encode (.jpV0 nnn), _, rfl, hsum, ?_, unchangedExcept_applyPcAction s _⟩
  rw [fetch_applyPcAction, pcAfter, hsum]
  rfl

/-- Settles O23: a jump is its PC action and nothing else. -/
theorem jumpGoesToItsAddress : Obligations.JumpGoesToItsAddress := fun s nnn =>
  ⟨decode_encode (.jp nnn), _, rfl, toNat_addrOperand nnn, unchangedExcept_applyPcAction s _⟩

/-- Settles O28: each skip is the PC action Skip on its comparison, and the last digit of `5xy0` and `9xy0` is literal. -/
theorem skipsCompare : Obligations.SkipsCompare := fun s x y nn =>
  ⟨⟨decode_encode (.seImm x nn), exec_seImm x nn s ▸ finish_spec s _⟩,
    ⟨decode_encode (.sneImm x nn), exec_sneImm x nn s ▸ finish_spec s _⟩,
    ⟨decode_encode (.seReg x y), exec_seReg x y s ▸ finish_spec s _⟩,
    ⟨decode_encode (.sneReg x y), exec_sneReg x y s ▸ finish_spec s _⟩,
    fun _ hn => ⟨decode_encodeRegReg_of_ne (.inl rfl) x y hn, decode_encodeRegReg_of_ne (.inr rfl) x y hn⟩⟩

end Sys2Proof.Machine
end

section
/-!
Register and arithmetic instructions (42_alu).  First the frame as a relation that composes, then what the two shared ends
of these instructions do (a result alone, a result and its flag), then the results and flags as numbers; each obligation
is its instruction's case of the shared end with the number put in.
-/

namespace Sys2Proof.Machine

/-! ### Frames compose -/

theorem Part.same_trans {p : Part} {s t u : State} (hst : p.same s t) (htu : p.same t u) : p.same s u := by
  cases p with
  | v | stack | mem | key => exact fun k => (htu k).trans (hst k)
  | fb => exact fun x y => (htu x y).trans (hst x y)
  | _ => exact Eq.trans htu hst

/-- Two writes in a row leave unchanged what neither of them may write. -/
theorem unchangedExcept_trans {ps qs : List Part} {s t u : State} (hst : unchangedExcept ps s t)
    (htu : unchangedExcept qs t u) : unchangedExcept (qs ++ ps) s u := fun p hp =>
  Part.same_trans (hst p fun h => hp (List.mem_append_right qs h)) (htu p fun h => hp (List.mem_append_left ps h))

/-- What may be written is a set: a list with more parts allows more. -/
theorem unchangedExcept_mono {ps qs : List Part} {s t : State} (h : unchangedExcept ps s t) (hsub : ps ⊆ qs) :
    unchangedExcept qs s t := fun p hp => h p fun hps => hp (hsub hps)

theorem unchangedExcept_setReg (s : State) (x : Reg) (b : Byte) : unchangedExcept [.v] s (setReg s x b) := by
  intro p hp
  cases p with
  | v => exact absurd List.mem_cons_self hp
  | stack | mem | key => exact fun _ => rfl
  | fb => exact fun _ _ => rfl
  | _ => rfl

/-! ### The two shared ends -/

/-- A result without a flag: the instruction completes, Vx holds the result, every other register is kept (42_alu R160). -/
theorem writeResult_spec (s : State) (x : Reg) (b : Byte) :
    ∃ t, writeResult s x b = .next t ∧ (∀ r, reg t r = if r = x then b else reg s r) ∧
      t.pc = pcAfter .next s.pc ∧ unchangedExcept [.pc, .v] s t :=
  ⟨applyPcAction (setReg s x b) .next, rfl, reg_setReg s x b, rfl,
    unchangedExcept_trans (unchangedExcept_setReg s x b) (unchangedExcept_applyPcAction _ _)⟩

/-- A result with its flag: VF holds the flag even when it is Vx, since it is written last (40_cycle R127). -/
theorem writeResultFlag_spec (s : State) (x : Reg) (b f : Byte) :
    ∃ t, writeResultFlag s x b f = .next t ∧ reg t vf = f ∧ (x ≠ vf → reg t x = b) ∧
      (∀ r, r ≠ x → r ≠ vf → reg t r = reg s r) ∧
      t.pc = pcAfter .next s.pc ∧ unchangedExcept [.pc, .v] s t := by
  have hreg := reg_writeFlag_setReg s x b f
  have hframe := unchangedExcept_trans (unchangedExcept_setReg s x b) (unchangedExcept_setReg (setReg s x b) vf f)
  refine ⟨applyPcAction (writeFlag (setReg s x b) f) .next, rfl, ?flag, fun hx => ?result, fun r hrx hrf => ?others, rfl,
    unchangedExcept_mono (unchangedExcept_trans hframe (unchangedExcept_applyPcAction _ _)) (by simp)⟩
  case flag => simp [hreg]
  case result => simp [hreg, hx]
  case others => simp [hreg, hrx, hrf]

/-! ### Results and flags as numbers -/

/-- The difference of two bytes is the integer difference modulo 256 (42_alu R160). -/
theorem toNat_sub_eq_emod (a b : Byte) : ((a - b).toNat : Int) = ((a.toNat : Int) - b.toNat) % 256 := by
  have hb := b.isLt
  rw [BitVec.toNat_sub]
  omega

theorem toNat_flagByte (c : Bool) : (flagByte c).toNat = c.toNat := by cases c <;> rfl

/-- The bit shifted out to the right is the remainder of the halving (42_alu R169). -/
theorem toNat_lowBitFlag (a : Byte) : (lowBitFlag a).toNat = a.toNat % 2 := by
  rw [lowBitFlag, toNat_flagByte, BitVec.getLsbD, Nat.toNat_testBit, pow_zero, Nat.div_one]

/-- The bit shifted out to the left is the carry of the doubling (42_alu R171). -/
theorem toNat_highBitFlag (a : Byte) : (highBitFlag a).toNat = a.toNat / 128 := by
  have ha := a.isLt
  rw [highBitFlag, toNat_flagByte, BitVec.getLsbD, Nat.toNat_testBit]
  omega

theorem toNat_ushiftRight_one (a : Byte) : (a >>> 1).toNat = a.toNat / 2 := by
  rw [BitVec.toNat_ushiftRight, Nat.shiftRight_one]

theorem toNat_shiftLeft_one (a : Byte) : (a <<< 1).toNat = a.toNat * 2 % 256 := by
  rw [BitVec.toNat_shiftLeft, Nat.shiftLeft_eq, pow_one]

/-! ### The obligations -/

/-- Settles O30: the result is the immediate. -/
theorem loadImmediateWritesVx : Obligations.LoadImmediateWritesVx := fun s x nn =>
  ⟨decode_encode (.ldImm x nn), writeResult_spec s x nn⟩

/-- Settles O32: the result is the old Vy. -/
theorem copyWritesVx : Obligations.CopyWritesVx := fun s x y =>
  ⟨decode_encode (.ldReg x y), writeResult_spec s x (reg s y)⟩

/-- Settles O31: the result is the sum, and after `6xnn` the Vx it reads is the first immediate. -/
theorem addImmediateWrapsWithoutFlag : Obligations.AddImmediateWrapsWithoutFlag := by
  intro s x nn
  refine ⟨decode_encode (.addImm x nn), ?single, fun first => ?afterLoad⟩
  case single =>
    obtain ⟨t, ht, hreg, hrest⟩ := writeResult_spec s x (reg s x + nn)
    refine ⟨t, ht, ?_, fun r hr => by rw [hreg, if_neg hr], hrest⟩
    rw [hreg, if_pos rfl, BitVec.toNat_add]
  case afterLoad =>
    obtain ⟨t, ht, hregt, -⟩ := writeResult_spec s x first
    obtain ⟨u, hu, hregu, -⟩ := writeResult_spec t x (reg t x + nn)
    refine ⟨t, u, ht, hu, ?_⟩
    rw [hregu, if_pos rfl, hregt, if_pos rfl, BitVec.toNat_add]

/-- Settles O34: result and flag are the sum's low byte and its carry. -/
theorem addSetsCarryLast : Obligations.AddSetsCarryLast := by
  intro s x y
  obtain ⟨t, ht, hflag, hresult, hrest⟩ :=
    writeResultFlag_spec s x (reg s x + reg s y) (carryFlag (reg s x) (reg s y))
  refine ⟨decode_encode (.addReg x y), t, ht, hflag.trans (flagByte_decide _), fun hx => ?_, hrest⟩
  rw [hresult hx, BitVec.toNat_add]

/-- Settles O35: result and flag are the difference modulo 256 and whether it needs no borrow. -/
theorem subtractSetsNotBorrowLast : Obligations.SubtractSetsNotBorrowLast := by
  intro s x y
  obtain ⟨t, ht, hflag, hresult, hrest⟩ :=
    writeResultFlag_spec s x (reg s x - reg s y) (notBorrowFlag (reg s x) (reg s y))
  refine ⟨decode_encode (.subReg x y), t, ht, hflag.trans (flagByte_decide _), fun hx => ?_, hrest⟩
  rw [hresult hx, toNat_sub_eq_emod]

/-- Settles O37: each shift is a result and the bit shifted out of the old Vx; neither mentions Vy. -/
theorem shiftsSetTheBitShiftedOut : Obligations.ShiftsSetTheBitShiftedOut := by
  intro s x y
  refine ⟨⟨decode_encode (.shr x y), ?right⟩, ⟨decode_encode (.shl x y), ?left⟩, fun _ => ⟨rfl, rfl⟩⟩
  case right =>
    obtain ⟨t, ht, hflag, hresult, hrest⟩ := writeResultFlag_spec s x (reg s x >>> 1) (lowBitFlag (reg s x))
    exact ⟨t, ht, hflag ▸ toNat_lowBitFlag _, fun hx => hresult hx ▸ toNat_ushiftRight_one _, hrest⟩
  case left =>
    obtain ⟨t, ht, hflag, hresult, hrest⟩ := writeResultFlag_spec s x (reg s x <<< 1) (highBitFlag (reg s x))
    exact ⟨t, ht, hflag ▸ toNat_highBitFlag _, fun hx => hresult hx ▸ toNat_shiftLeft_one _, hrest⟩

end Sys2Proof.Machine
end

section
/-!
Index register and memory instructions (43_index_memory).  First the frames of a write to I and of a write to memory, then
the address operands as numbers, then what the three stores of `Fx33` leave in memory; the obligations are put together
from these.
-/

namespace Sys2Proof.Machine

/-! ### Frames of the two writes -/

theorem unchangedExcept_setIndex (s : State) (a : Word) : unchangedExcept [.i] s (setIndex s a) := by
  intro p hp
  cases p with
  | i => exact absurd List.mem_cons_self hp
  | v | stack | mem | key => exact fun _ => rfl
  | fb => exact fun _ _ => rfl
  | _ => rfl

theorem unchangedExcept_memWrite (s : State) (a : Nat) (b : Byte) : unchangedExcept [.mem] s (memWrite s a b) := by
  intro p hp
  cases p with
  | mem => exact absurd List.mem_cons_self hp
  | v | stack | key => exact fun _ => rfl
  | fb => exact fun _ _ => rfl
  | _ => rfl

/-- A handler that writes I and goes to the next instruction completes, I holds the value, and nothing else but PC changes
(43_index_memory R190, R192). -/
theorem finish_setIndex_spec (s : State) (a : Word) :
    ∃ t, finish (setIndex s a) .next = .next t ∧ t.i = a ∧ t.pc = pcAfter .next s.pc ∧ unchangedExcept [.pc, .i] s t :=
  ⟨applyPcAction (setIndex s a) .next, rfl, rfl, rfl,
    unchangedExcept_trans (unchangedExcept_setIndex s a) (unchangedExcept_applyPcAction _ _)⟩

/-! ### Addresses as numbers -/

/-- Five times a byte has no carry out of 16 bits, so the font address is exact (43_index_memory R192). -/
theorem toNat_byteOperand_mul_five (b : Byte) : (byteOperand b * 5).toNat = b.toNat * 5 := by
  have hb := b.isLt
  rw [BitVec.toNat_mul, toNat_byteOperand]
  exact Nat.mod_eq_of_lt (show b.toNat * 5 < 65536 by omega)

/-- Bytes less than 4096 apart, counted from I, go to different addresses although each wraps on its own (20_memory R61). -/
theorem effectiveAddress_mod_eq_iff (s : State) {j k : Nat} (hj : j < 4096) (hk : k < 4096) :
    effectiveAddress s j % 4096 = effectiveAddress s k % 4096 ↔ j = k := by
  unfold effectiveAddress
  omega

/-! ### The three stores of `Fx33` -/

/-- The state with the digits of Vx stored at I, I + 1 and I + 2, before the PC action (43_index_memory R193). -/
def storeBcd (s : State) (x : Reg) : State :=
  memWrite
    (memWrite (memWrite s (effectiveAddress s 0) (bcdDigits (reg s x)).1) (effectiveAddress s 1) (bcdDigits (reg s x)).2.1)
    (effectiveAddress s 2) (bcdDigits (reg s x)).2.2

theorem exec_ldB (x : Reg) (s : State) : exec (.ldB x) s = finish (storeBcd s x) .next := rfl

theorem unchangedExcept_storeBcd (s : State) (x : Reg) : unchangedExcept [.mem] s (storeBcd s x) :=
  have hthree := unchangedExcept_trans (unchangedExcept_trans (unchangedExcept_memWrite s _ _)
    (unchangedExcept_memWrite _ _ _)) (unchangedExcept_memWrite _ _ _)
  unchangedExcept_mono hthree (by simp)

/-- What memory reads after the three stores, the last one first. -/
theorem memRead_storeBcd {s : State} (h : s.mem.wf = true) (x : Reg) (a : Nat) :
    memRead (storeBcd s x) a =
      if effectiveAddress s 2 % 4096 = a % 4096 then (bcdDigits (reg s x)).2.2
      else if effectiveAddress s 1 % 4096 = a % 4096 then (bcdDigits (reg s x)).2.1
      else if effectiveAddress s 0 % 4096 = a % 4096 then (bcdDigits (reg s x)).1
      else memRead s a := by
  have hhundreds := memWrite_wf (effectiveAddress s 0) (bcdDigits (reg s x)).1 h
  have htens := memWrite_wf (effectiveAddress s 1) (bcdDigits (reg s x)).2.1 hhundreds
  rw [storeBcd, memRead_memWrite htens, memRead_memWrite hhundreds, memRead_memWrite h]

/-- No store overwrites another: each digit is read back at its own address (43_index_memory R193). -/
theorem memRead_storeBcd_digits {s : State} (h : s.mem.wf = true) (x : Reg) :
    memRead (storeBcd s x) (effectiveAddress s 0) = (bcdDigits (reg s x)).1 ∧
    memRead (storeBcd s x) (effectiveAddress s 1) = (bcdDigits (reg s x)).2.1 ∧
    memRead (storeBcd s x) (effectiveAddress s 2) = (bcdDigits (reg s x)).2.2 := by
  simp [memRead_storeBcd h, effectiveAddress_mod_eq_iff]

/-- A byte at none of the three addresses is kept. -/
theorem memRead_storeBcd_other {s : State} (h : s.mem.wf = true) (x : Reg) {a : Nat}
    (ha : ∀ k < 3, effectiveAddress s k % 4096 ≠ a % 4096) : memRead (storeBcd s x) a = memRead s a := by
  rw [memRead_storeBcd h, if_neg (ha 2 (by decide)), if_neg (ha 1 (by decide)), if_neg (ha 0 (by decide))]

/-! ### The obligations -/

/-- Settles O39: both are a write of I, of the zero-extended address or of five times the zero-extended Vx. -/
theorem loadIndexAndFontAddress : Obligations.LoadIndexAndFontAddress := by
  intro s nnn x
  refine ⟨⟨decode_encode (.ldI nnn), ?address⟩, ⟨decode_encode (.ldF x), ?font⟩⟩
  case address =>
    obtain ⟨t, ht, hi, hrest⟩ := finish_setIndex_spec s (addrOperand nnn)
    exact ⟨t, ht, hi ▸ toNat_addrOperand nnn, hrest⟩
  case font =>
    obtain ⟨t, ht, hi, hrest⟩ := finish_setIndex_spec s (byteOperand (reg s x) * 5)
    exact ⟨t, ht, hi ▸ toNat_byteOperand_mul_five _, hrest⟩

/-- Settles O41: the three stores go to three addresses, and each stored digit is the quotient it names. -/
theorem bcdStoresThreeDigits : Obligations.BcdStoresThreeDigits := by
  intro s x
  refine ⟨decode_encode (.ldB x), applyPcAction (storeBcd s x) .next, exec_ldB x s, fun hwf => ?memory, rfl,
    unchangedExcept_trans (unchangedExcept_storeBcd s x) (unchangedExcept_applyPcAction _ _)⟩
  case memory =>
    obtain ⟨hhundreds, htens, hones⟩ := memRead_storeBcd_digits hwf x
    simp only [memRead_applyPcAction, hhundreds, htens, hones]
    refine ⟨BitVec.toNat_udiv, ?tens, BitVec.toNat_umod, fun a => memRead_storeBcd_other hwf x⟩
    case tens => rw [bcdDigits, BitVec.toNat_umod, BitVec.toNat_udiv]; rfl

end Sys2Proof.Machine
end

section
/-!
Display (44_display).  The frame of a replaced framebuffer, then the clear screen as that write with the cleared display.
-/

namespace Sys2Proof.Machine

theorem unchangedExcept_setFb (s : State) (fb : Framebuffer) : unchangedExcept [.fb] s (setFb s fb) := by
  intro p hp
  cases p with
  | fb => exact absurd List.mem_cons_self hp
  | v | stack | mem | key => exact fun _ => rfl
  | _ => rfl

/-- A handler that replaces the framebuffer and goes to the next instruction completes, each pixel is read from the new
framebuffer, and nothing else but PC changes (44_display R211). -/
theorem finish_setFb_spec (s : State) (fb : Framebuffer) :
    ∃ t, finish (setFb s fb) .next = .next t ∧ (∀ x y, pixel t x y = fbGet fb x y) ∧
      t.pc = pcAfter .next s.pc ∧ unchangedExcept [.pc, .fb] s t :=
  ⟨applyPcAction (setFb s fb) .next, rfl, fun _ _ => rfl, rfl,
    unchangedExcept_trans (unchangedExcept_setFb s fb) (unchangedExcept_applyPcAction _ _)⟩

/-! ### The obligation -/

/-- Settles O46: the new framebuffer is the cleared display, which reads false everywhere. -/
theorem clearScreenDarkensEveryPixel : Obligations.ClearScreenDarkensEveryPixel := by
  intro s
  obtain ⟨t, ht, hpixel, hrest⟩ := finish_setFb_spec s fbClear
  exact ⟨decode_encode .cls, t, ht, fun x y => (hpixel x y).trans (fbGet_fbClear x y), hrest⟩

end Sys2Proof.Machine
end

section
/-!
Timers (60_exceptions).  What one count does to a timer, and the frame of the decrement of both.
-/

namespace Sys2Proof.Machine

/-- The subtraction of natural numbers, which stops at 0, is the saturation of a timer (60_exceptions R250). -/
theorem toNat_countDown (b : Byte) : (countDown b).toNat = b.toNat - 1 := by
  by_cases hb : b = 0
  · subst hb
    rfl
  · have hpos : 1#8 ≤ b := Nat.pos_of_ne_zero fun h => hb (BitVec.eq_of_toNat_eq h)
    rw [countDown, if_neg hb]
    exact BitVec.toNat_sub_of_le hpos

theorem countDown_zero : countDown 0 = 0 := rfl

theorem unchangedExcept_decrementTimers (s : State) : unchangedExcept [.dt, .st] s (decrementTimers s) := by
  intro p hp
  cases p with
  | dt | st => exact absurd (by decide) hp
  | v | stack | mem | key => exact fun _ => rfl
  | fb => exact fun _ _ => rfl
  | _ => rfl

/-! ### The obligation -/

/-- Settles O16: each timer is counted down by itself, and the decrement writes nothing else. -/
theorem timersSaturateAtZero : Obligations.TimersSaturateAtZero := fun s =>
  ⟨fun _ => toNat_countDown s.dt, fun hdt => (congrArg countDown hdt).trans countDown_zero,
    fun _ => toNat_countDown s.st, fun hst => (congrArg countDown hst).trans countDown_zero,
    unchangedExcept_decrementTimers s⟩

end Sys2Proof.Machine
end

section
/-!
Encoding (30_encoding).  The two tables of words meet in the fields of a word: the digits of the table of unknown words are
its fields, and so are the masks of the opcode map.
-/

namespace Sys2Proof.Machine

/-! ### Encode after decode -/

theorem encodeAddr_of_fieldI {w : Word} {i : Nibble} (hi : fieldI w = i) : encodeAddr i (fieldNnn w) = w :=
  hi ▸ encodeAddr_fields w

theorem encodeRegByte_of_fields {w : Word} {i : Nibble} {nn : Byte} (hi : fieldI w = i) (hnn : fieldNn w = nn) :
    encodeRegByte i (fieldX w) nn = w :=
  hi ▸ hnn ▸ encodeRegByte_fields w

theorem encodeRegReg_of_fields {w : Word} {i n : Nibble} (hi : fieldI w = i) (hn : fieldN w = n) :
    encodeRegReg i (fieldX w) (fieldY w) n = w :=
  hi ▸ hn ▸ encodeRegReg_fields w

/-- Major opcode 8: the word is put together again from its fields. -/
theorem encode_decodeArithmetic {w : Word} {i : Instr} (hi : fieldI w = 0x8) (h : decodeArithmetic w = .instr i) :
    encode i = w := by
  unfold decodeArithmetic at h
  split at h <;> cases h
  all_goals exact encodeRegReg_of_fields hi ‹_›

/-- Major opcode F: the word is put together again from its fields. -/
theorem encode_decodeMisc {w : Word} {i : Instr} (hi : fieldI w = 0xF) (h : decodeMisc w = .instr i) :
    encode i = w := by
  unfold decodeMisc at h
  split at h <;> cases h
  all_goals exact encodeRegByte_of_fields hi ‹_›

theorem encode_decode {w : Word} {i : Instr} (h : decode w = .instr i) : encode i = w := by
  unfold decode at h
  split at h
  case h_1 => split_ifs at h with hw hw <;> cases h <;> exact hw.symm
  case h_6 hi | h_10 hi => split_ifs at h with hn; cases h; exact encodeRegReg_of_fields hi hn
  case h_15 hi => split_ifs at h with hn hn <;> cases h <;> exact encodeRegByte_of_fields hi hn
  case h_9 hi => exact encode_decodeArithmetic hi h
  case h_16 hi => exact encode_decodeMisc hi h
  case h_14 hi => cases h; exact encodeRegReg_of_fields hi rfl
  case h_2 hi | h_3 hi | h_11 hi | h_12 hi => cases h; exact encodeAddr_of_fieldI hi
  case h_4 hi | h_5 hi | h_7 hi | h_8 hi | h_13 hi => cases h; exact encodeRegByte_of_fields hi rfl
  case h_17 => cases h

/-! ### The digits of the table of unknown words -/

theorem digit_three (w : Word) : Word.digit w 3 = (fieldI w).toNat := by
  rw [Word.digit, fieldI, BitVec.extractLsb'_toNat, Nat.shiftRight_eq_div_pow]
  rfl

theorem digit_zero (w : Word) : Word.digit w 0 = (fieldN w).toNat := by
  rw [Word.digit, fieldN, BitVec.extractLsb'_toNat, Nat.shiftRight_eq_div_pow]
  rfl

theorem toNat_mod_256 (w : Word) : w.toNat % 256 = (fieldNn w).toNat := by
  rw [fieldNn, BitVec.extractLsb'_toNat]
  rfl

/-- Major opcode 0: the two words with a pattern are the two that R95 does not list. -/
theorem zeroRowOk_eq_false_iff (w : Word) : Word.zeroRowOk w = false ↔ w ≠ 0x00E0#16 ∧ w ≠ 0x00EE#16 := by
  simp [Word.zeroRowOk, ← BitVec.toNat_inj]

/-- Major opcodes 5 and 9: a last digit other than 0 is unknown in both tables. -/
theorem registerSkipOk_eq_false_iff (w : Word) : Word.registerSkipOk w = false ↔ fieldN w ≠ 0 := by
  simp [Word.registerSkipOk, digit_zero, ← BitVec.toNat_inj]

/-- Every nibble is a major opcode. -/
theorem major_opcode_cases (i : Nibble) :
    i ∈ [0x0#4, 0x1#4, 0x2#4, 0x3#4, 0x4#4, 0x5#4, 0x6#4, 0x7#4] ++
      [0x8#4, 0x9#4, 0xA#4, 0xB#4, 0xC#4, 0xD#4, 0xE#4, 0xF#4] := by
  revert i
  decide

/-- A last digit has a pattern under major opcode 8, or R95 lists it. -/
theorem arithmetic_digit_cases (n : Nibble) :
    n ∈ [0x0#4, 0x1#4, 0x2#4, 0x3#4, 0x4#4, 0x5#4, 0x6#4, 0x7#4, 0xE#4] ∨
      [0x8, 0x9, 0xA, 0xB, 0xC, 0xD, 0xF].contains n.toNat = true := by
  revert n
  decide

/-- Major opcode 8: the last digits without a pattern are those of the table of unknown words. -/
theorem decodeArithmetic_eq_unknownOpcode_iff (w : Word) :
    decodeArithmetic w = .unknownOpcode w ↔ Word.arithmeticOk w = false := by
  unfold decodeArithmetic Word.arithmeticOk
  rw [digit_zero]
  split
  case h_10 =>
    have hdigit := arithmetic_digit_cases (fieldN w)
    simp_all
  all_goals
    rename_i hn
    simp [hn]

/-- Major opcode E: the low bytes without a pattern are those of the table of unknown words. -/
theorem keySkipOk_eq_false_iff (w : Word) : Word.keySkipOk w = false ↔ fieldNn w ≠ 0x9E ∧ fieldNn w ≠ 0xA1 := by
  simp [Word.keySkipOk, toNat_mod_256, ← BitVec.toNat_inj]

/-- Major opcode F: the low bytes without a pattern are those of the table of unknown words. -/
theorem decodeMisc_eq_unknownOpcode_iff (w : Word) :
    decodeMisc w = .unknownOpcode w ↔ Word.miscOk w = false := by
  unfold decodeMisc Word.miscOk
  rw [toNat_mod_256]
  split
  case h_10 => simp_all [← BitVec.toNat_inj]
  all_goals
    rename_i hnn
    simp [hnn]

theorem decode_eq_unknownOpcode_iff (w : Word) : decode w = .unknownOpcode w ↔ Word.wellFormed w = false := by
  unfold decode Word.wellFormed
  rw [digit_three]
  split
  case h_1 hi =>
    rw [hi]
    refine Iff.trans ?_ (zeroRowOk_eq_false_iff w).symm
    split_ifs <;> simp_all
  case h_6 hi | h_10 hi =>
    rw [hi]
    refine Iff.trans ?_ (registerSkipOk_eq_false_iff w).symm
    split_ifs <;> simp_all
  case h_9 hi => rw [hi]; exact decodeArithmetic_eq_unknownOpcode_iff w
  case h_15 hi =>
    rw [hi]
    refine Iff.trans ?_ (keySkipOk_eq_false_iff w).symm
    split_ifs <;> simp_all
  case h_16 hi => rw [hi]; exact decodeMisc_eq_unknownOpcode_iff w
  case h_17 =>
    have hmem := major_opcode_cases (fieldI w)
    simp_all
  all_goals
    rename_i hi
    simp [hi]

/-- A word is unknown or an instruction, and never both. -/
theorem wellFormed_of_decode {w : Word} {i : Instr} (h : decode w = .instr i) : Word.wellFormed w = true := by
  rw [← Bool.not_eq_false, ← decode_eq_unknownOpcode_iff, h]
  exact Decoded.noConfusion

/-! ### The opcode map in mask form -/

theorem encodeRow_statement (i : Instr) : Laws.EncodeRow.Statement i :=
  match i with
  | .cls => Laws.EncodeRow.cls
  | .ret => Laws.EncodeRow.ret
  | .jp nnn => Laws.EncodeRow.jp nnn
  | .call nnn => Laws.EncodeRow.call nnn
  | .seImm x nn => Laws.EncodeRow.seImm x nn
  | .sneImm x nn => Laws.EncodeRow.sneImm x nn
  | .seReg x y => Laws.EncodeRow.seReg x y
  | .ldImm x nn => Laws.EncodeRow.ldImm x nn
  | .addImm x nn => Laws.EncodeRow.addImm x nn
  | .ldReg x y => Laws.EncodeRow.ldReg x y
  | .orReg x y => Laws.EncodeRow.orReg x y
  | .andReg x y => Laws.EncodeRow.andReg x y
  | .xorReg x y => Laws.EncodeRow.xorReg x y
  | .addReg x y => Laws.EncodeRow.addReg x y
  | .subReg x y => Laws.EncodeRow.subReg x y
  | .shr x y => Laws.EncodeRow.shr x y
  | .subnReg x y => Laws.EncodeRow.subnReg x y
  | .shl x y => Laws.EncodeRow.shl x y
  | .sneReg x y => Laws.EncodeRow.sneReg x y
  | .ldI nnn => Laws.EncodeRow.ldI nnn
  | .jpV0 nnn => Laws.EncodeRow.jpV0 nnn
  | .rnd x nn => Laws.EncodeRow.rnd x nn
  | .drw x y n => Laws.EncodeRow.drw x y n
  | .skp x => Laws.EncodeRow.skp x
  | .sknp x => Laws.EncodeRow.sknp x
  | .ldVxDt x => Laws.EncodeRow.ldVxDt x
  | .ldDtVx x => Laws.EncodeRow.ldDtVx x
  | .ldStVx x => Laws.EncodeRow.ldStVx x
  | .addI x => Laws.EncodeRow.addI x
  | .ldVxK x => Laws.EncodeRow.ldVxK x
  | .ldF x => Laws.EncodeRow.ldF x
  | .ldB x => Laws.EncodeRow.ldB x
  | .stRegs x => Laws.EncodeRow.stRegs x
  | .ldRegs x => Laws.EncodeRow.ldRegs x

theorem hits_iff (r : OpcodeRow) (w : Word) : r.hits w = true ↔ w &&& r.mask = r.value := beq_iff_eq

/-- A word that decodes is matched by the row of its instruction, since it is that instruction's own word. -/
theorem opcodeRow_hits_of_decode {w : Word} {i : Instr} (h : decode w = .instr i) :
    opcodeRow i ∈ opcodeRows ∧ (opcodeRow i).hits w = true := by
  obtain ⟨hmem, hrow⟩ := encodeRow_statement i
  exact ⟨hmem, (hits_iff _ _).mpr (encode_decode h ▸ hrow)⟩

/-- An instruction for each row of the opcode map, every operand 0. -/
def rowInstrs : List Instr :=
  [.cls, .ret, .jp 0, .call 0, .seImm 0 0, .sneImm 0 0, .seReg 0 0, .ldImm 0 0, .addImm 0 0, .ldReg 0 0, .orReg 0 0,
   .andReg 0 0, .xorReg 0 0, .addReg 0 0, .subReg 0 0, .shr 0 0, .subnReg 0 0, .shl 0 0, .sneReg 0 0, .ldI 0, .jpV0 0,
   .rnd 0 0, .drw 0 0 0, .skp 0, .sknp 0, .ldVxDt 0, .ldDtVx 0, .ldStVx 0, .addI 0, .ldVxK 0, .ldF 0, .ldB 0, .stRegs 0,
   .ldRegs 0]

theorem opcodeRows_eq_map : opcodeRows = rowInstrs.map opcodeRow := rfl

theorem exists_opcodeRow_eq {r : OpcodeRow} (h : r ∈ opcodeRows) : ∃ i, opcodeRow i = r := by
  rw [opcodeRows_eq_map] at h
  obtain ⟨i, -, hi⟩ := List.mem_map.mp h
  exact ⟨i, hi⟩

theorem fieldI_and (w m : Word) : fieldI (w &&& m) = fieldI w &&& fieldI m := BitVec.extractLsb'_and ..

theorem fieldN_and (w m : Word) : fieldN (w &&& m) = fieldN w &&& fieldN m := BitVec.extractLsb'_and ..

theorem fieldNn_and (w m : Word) : fieldNn (w &&& m) = fieldNn w &&& fieldNn m := BitVec.extractLsb'_and ..

/-- Every mask keeps the major opcode. -/
theorem fieldI_eq_of_hits {r : OpcodeRow} {w w' : Word} (hmem : r ∈ opcodeRows) (h : r.hits w = true)
    (h' : r.hits w' = true) : fieldI w = fieldI w' := by
  have hmask : ∀ r ∈ opcodeRows, fieldI r.mask = BitVec.allOnes 4 := by decide
  have hand := congrArg fieldI (((hits_iff r w).mp h).trans ((hits_iff r w').mp h').symm)
  simpa only [fieldI_and, hmask r hmem, BitVec.and_allOnes] using hand

theorem fieldN_eq_of_hits {v w w' : Word} (h : OpcodeRow.hits ⟨0xF00F, v⟩ w = true)
    (h' : OpcodeRow.hits ⟨0xF00F, v⟩ w' = true) : fieldN w = fieldN w' := by
  have hmask : fieldN 0xF00F = BitVec.allOnes 4 := by decide
  have hand := congrArg fieldN (((hits_iff _ w).mp h).trans ((hits_iff _ w').mp h').symm)
  simpa only [fieldN_and, hmask, BitVec.and_allOnes] using hand

theorem fieldNn_eq_of_hits {v w w' : Word} (h : OpcodeRow.hits ⟨0xF0FF, v⟩ w = true)
    (h' : OpcodeRow.hits ⟨0xF0FF, v⟩ w' = true) : fieldNn w = fieldNn w' := by
  have hmask : fieldNn 0xF0FF = BitVec.allOnes 8 := by decide
  have hand := congrArg fieldNn (((hits_iff _ w).mp h).trans ((hits_iff _ w').mp h').symm)
  simpa only [fieldNn_and, hmask, BitVec.and_allOnes] using hand

theorem eq_of_hits_allOnes {v w : Word} (h : OpcodeRow.hits ⟨0xFFFF, v⟩ w = true) : w = v :=
  BitVec.and_allOnes.symm.trans ((hits_iff _ _).mp h)

/-- A word that the row of an instruction matches is an instruction: in the digits the decoder compares it is as the
instruction's own word. -/
theorem exists_decode_of_hits {i : Instr} {w : Word} (h : (opcodeRow i).hits w = true) : ∃ j, decode w = .instr j := by
  obtain ⟨hmem, hown⟩ := opcodeRow_hits_of_decode (decode_encode i)
  have hi := fieldI_eq_of_hits hmem h hown
  cases i with
  | cls | ret =>
    rw [eq_of_hits_allOnes h]
    exact ⟨_, rfl⟩
  | jp | call | seImm | sneImm | ldImm | addImm | ldI | jpV0 | rnd | drw =>
    simp [decode, hi, encode]
  | seReg | sneReg | ldReg | orReg | andReg | xorReg | addReg | subReg | shr | subnReg | shl =>
    have hn := fieldN_eq_of_hits h hown
    simp [decode, decodeArithmetic, hi, hn, encode]
  | skp | sknp | ldVxDt | ldDtVx | ldStVx | addI | ldVxK | ldF | ldB | stRegs | ldRegs =>
    have hnn := fieldNn_eq_of_hits h hown
    simp [decode, decodeMisc, hi, hnn, encode]

/-- Two different rows differ in a digit that both of them compare. -/
theorem opcodeRows_disjoint : ∀ r₁ ∈ opcodeRows, ∀ r₂ ∈ opcodeRows,
    r₁.value &&& r₂.mask = r₂.value &&& r₁.mask → r₁ = r₂ := by
  decide

theorem eq_of_hits {r₁ r₂ : OpcodeRow} {w : Word} (hmem₁ : r₁ ∈ opcodeRows) (hmem₂ : r₂ ∈ opcodeRows)
    (h₁ : r₁.hits w = true) (h₂ : r₂.hits w = true) : r₁ = r₂ := by
  refine opcodeRows_disjoint r₁ hmem₁ r₂ hmem₂ ?_
  rw [← (hits_iff _ _).mp h₁, ← (hits_iff _ _).mp h₂]
  ac_rfl

/-! ### The obligations -/

/-- Settles O2: the word of an instruction decodes, and a word that decodes is not in the table of unknown words. -/
theorem decodingAnEncodedInstructionGivesItBack : Obligations.DecodingAnEncodedInstructionGivesItBack := fun i =>
  ⟨decode_encode i, wellFormed_of_decode (decode_encode i)⟩

/-- Settles O3: each branch of the decoder reads the very fields its pattern is written from. -/
theorem encodingADecodedWordGivesItBack : Obligations.EncodingADecodedWordGivesItBack := fun _ _ => encode_decode

/-- Settles O4: a decoded word is its instruction's word, which lies in its row; a row fixes the digits the decoder
compares; and two rows compare a digit in which they differ. -/
theorem decoderAgreesWithTheMaskTable : Obligations.DecoderAgreesWithTheMaskTable := by
  refine fun w => ⟨⟨?row_of_decode, ?decode_of_row⟩, fun i => opcodeRow_hits_of_decode,
    fun r₁ h₁ r₂ h₂ => eq_of_hits h₁ h₂⟩
  case row_of_decode =>
    rintro ⟨i, hi⟩
    exact ⟨opcodeRow i, opcodeRow_hits_of_decode hi⟩
  case decode_of_row =>
    rintro ⟨r, hmem, hr⟩
    obtain ⟨i, rfl⟩ := exists_opcodeRow_eq hmem
    exact exists_decode_of_hits hr

/-- Settles O5: the decoder's branches and the table of unknown words compare the same digits. -/
theorem unknownWordsAreThoseOfTheTable : Obligations.UnknownWordsAreThoseOfTheTable := fun w =>
  ⟨decode_eq_unknownOpcode_iff w, fun _ => unknownOpcode_word⟩

/-- Settles O1: the fifteen words are decoded. -/
theorem fewWordsOfEachFamilyDecode : Obligations.FewWordsOfEachFamilyDecode := by
  unfold Obligations.FewWordsOfEachFamilyDecode
  decide

end Sys2Proof.Machine
end

section
/-!
What an instruction can do, said once for all 34.  First the frame of every write that has none yet and the two ways a call
and a return go, then the frame of each instruction, from which follows which instruction can touch a given part.
-/

namespace Sys2Proof.Machine

/-! ### Frames of the writes -/

theorem Part.same_refl (p : Part) (s : State) : p.same s s := by
  cases p with
  | v | stack | mem | key => exact fun _ => rfl
  | fb => exact fun _ _ => rfl
  | _ => rfl

theorem unchangedExcept_refl (ps : List Part) (s : State) : unchangedExcept ps s s := fun p _ => Part.same_refl p s

theorem unchangedExcept_setDelay (s : State) (b : Byte) : unchangedExcept [.dt] s (setDelay s b) := by
  intro p hp
  have hsame := Part.same_refl p s
  cases p with
  | dt => exact absurd List.mem_cons_self hp
  | _ => exact hsame

theorem unchangedExcept_setSound (s : State) (b : Byte) : unchangedExcept [.st] s (setSound s b) := by
  intro p hp
  have hsame := Part.same_refl p s
  cases p with
  | st => exact absurd List.mem_cons_self hp
  | _ => exact hsame

theorem unchangedExcept_countDraw (s : State) : unchangedExcept [.draws] s (countDraw s) := by
  intro p hp
  have hsame := Part.same_refl p s
  cases p with
  | draws => exact absurd List.mem_cons_self hp
  | _ => exact hsame

theorem unchangedExcept_beginWait (s : State) (x : Reg) : unchangedExcept [.waiting, .waitDest] s (beginWait s x) := by
  intro p hp
  have hsame := Part.same_refl p s
  cases p with
  | waiting | waitDest => exact absurd (by decide) hp
  | _ => exact hsame

theorem unchangedExcept_endWait (s : State) : unchangedExcept [.waiting] s (endWait s) := by
  intro p hp
  have hsame := Part.same_refl p s
  cases p with
  | waiting => exact absurd List.mem_cons_self hp
  | _ => exact hsame

theorem unchangedExcept_fault (s : State) (k : Fault) : unchangedExcept [.fault] s { s with fault := some k } := by
  intro p hp
  have hsame := Part.same_refl p s
  cases p with
  | fault => exact absurd List.mem_cons_self hp
  | _ => exact hsame

theorem unchangedExcept_timerTick (s : State) : unchangedExcept [.cyc, .dt, .st] s (timerTick s) := by
  intro p hp
  have hsame := Part.same_refl p s
  cases p with
  | cyc | dt | st => exact absurd (by decide) hp
  | _ => exact hsame

theorem unchangedExcept_storeRegs (s : State) (n : Nat) : unchangedExcept [.mem] s (storeRegs s n) := by
  rw [storeRegs_eq]
  intro p hp
  have hsame := Part.same_refl p s
  cases p with
  | mem => exact absurd List.mem_cons_self hp
  | _ => exact hsame

theorem unchangedExcept_loadRegs (s : State) (n : Nat) : unchangedExcept [.v] s (loadRegs s n) := by
  rw [loadRegs_eq]
  intro p hp
  have hsame := Part.same_refl p s
  cases p with
  | v => exact absurd List.mem_cons_self hp
  | _ => exact hsame

/-- The read of a key makes at most a draw (45_timers_keypad R230). -/
theorem unchangedExcept_isDown (s : State) (v : Byte) : unchangedExcept [.draws] s (isDown s v).2 := by
  obtain ⟨_, hkey⟩ | ⟨_, hdraw⟩ := isDown_spec s v
  · exact hkey ▸ unchangedExcept_refl _ s
  · exact hdraw ▸ unchangedExcept_countDraw s

/-! ### Push and pop -/

/-- The state with one entry more on the stack (10_state R28). -/
def pushed (s : State) (a : Word) (h : s.sp.val < 16) : State :=
  { s with stack := s.stack.set s.sp.val a, sp := ⟨s.sp.val + 1, by omega⟩ }

/-- The state with one entry less on the stack, the entry itself kept (10_state R29). -/
def popped (s : State) (h : 0 < s.sp.val) : State := { s with sp := ⟨s.sp.val - 1, by omega⟩ }

/-- The entry on top of the stack (10_state R29). -/
def topEntry (s : State) (h : 0 < s.sp.val) : Word := s.stack[s.sp.val - 1]

theorem push_of_lt {s : State} (h : s.sp.val < 16) (a : Word) : push s a = .ok (pushed s a h) := by
  obtain ⟨hfull, -⟩ | ⟨_, hok⟩ := push_spec s a
  · omega
  · exact hok

theorem pop_of_pos {s : State} (h : 0 < s.sp.val) : pop s = .ok (topEntry s h, popped s h) := by
  obtain ⟨hempty, -⟩ | ⟨_, hok⟩ := pop_spec s
  · omega
  · exact hok

theorem unchangedExcept_pushed (s : State) (a : Word) (h : s.sp.val < 16) :
    unchangedExcept [.stack, .sp] s (pushed s a h) := by
  intro p hp
  have hsame := Part.same_refl p s
  cases p with
  | stack | sp => exact absurd (by decide) hp
  | _ => exact hsame

theorem unchangedExcept_popped (s : State) (h : 0 < s.sp.val) : unchangedExcept [.sp] s (popped s h) := by
  intro p hp
  have hsame := Part.same_refl p s
  cases p with
  | sp => exact absurd List.mem_cons_self hp
  | _ => exact hsame

/-! ### The two ways of a call and of a return -/

theorem exec_call_of_lt {s : State} (nnn : Addr12) (h : s.sp.val < 16) :
    exec (.call nnn) s = finish (pushed s (s.pc + 2) h) (.jump (addrOperand nnn)) := by
  show execCall nnn s = _
  rw [execCall, push_of_lt h]

theorem exec_call_of_full {s : State} (nnn : Addr12) (h : s.sp.val = 16) :
    exec (.call nnn) s = .next { s with fault := some .stackOverflow } := by
  obtain ⟨-, hfull⟩ | ⟨hlt, -⟩ := push_spec s (s.pc + 2)
  · show execCall nnn s = _
    rw [execCall, hfull]
    rfl
  · omega

theorem exec_ret_of_pos {s : State} (h : 0 < s.sp.val) :
    exec .ret s = finish (popped s h) (.jump (topEntry s h)) := by
  show execRet s = _
  rw [execRet, pop_of_pos h]

theorem exec_ret_of_empty {s : State} (h : s.sp.val = 0) :
    exec .ret s = .next { s with fault := some .stackUnderflow } := by
  obtain ⟨-, hempty⟩ | ⟨hpos, -⟩ := pop_spec s
  · show execRet s = _
    rw [execRet, hempty]
    rfl
  · omega

/-- Everything a call can do (41_control R142). -/
theorem exec_call_cases {s t : State} {nnn : Addr12} (ht : exec (.call nnn) s = .next t) :
    (∃ h : s.sp.val < 16, t = applyPcAction (pushed s (s.pc + 2) h) (.jump (addrOperand nnn))) ∨
    (s.sp.val = 16 ∧ t = { s with fault := some .stackOverflow }) := by
  by_cases h : s.sp.val < 16
  · rw [exec_call_of_lt nnn h, finish_eq_next] at ht
    exact .inl ⟨h, ht⟩
  · have hfull : s.sp.val = 16 := by omega
    rw [exec_call_of_full nnn hfull] at ht
    cases ht
    exact .inr ⟨hfull, rfl⟩

/-- Everything a return can do (41_control R140). -/
theorem exec_ret_cases {s t : State} (ht : exec .ret s = .next t) :
    (∃ h : 0 < s.sp.val, t = applyPcAction (popped s h) (.jump (topEntry s h))) ∨
    (s.sp.val = 0 ∧ t = { s with fault := some .stackUnderflow }) := by
  by_cases h : 0 < s.sp.val
  · rw [exec_ret_of_pos h, finish_eq_next] at ht
    exact .inl ⟨h, ht⟩
  · have hempty : s.sp.val = 0 := by omega
    rw [exec_ret_of_empty hempty] at ht
    cases ht
    exact .inr ⟨hempty, rfl⟩

/-! ### Every instruction completes and keeps to its parts -/

/-- Every instruction answers a next state (40_cycle R129). -/
theorem exec_total (i : Instr) (s : State) : ∃ t, exec i s = .next t := by
  cases i with
  | call nnn =>
    by_cases h : s.sp.val < 16
    · exact ⟨_, exec_call_of_lt nnn h⟩
    · exact ⟨_, exec_call_of_full nnn (by omega)⟩
  | ret =>
    by_cases h : 0 < s.sp.val
    · exact ⟨_, exec_ret_of_pos h⟩
    · exact ⟨_, exec_ret_of_empty (by omega)⟩
  | _ => exact ⟨_, rfl⟩

/-- A handler that completes changes PC and what it wrote before. -/
theorem unchangedExcept_of_finish {ps : List Part} {s u t : State} {a : PcAction} (h : finish u a = .next t)
    (hu : unchangedExcept ps s u) : unchangedExcept (.pc :: ps) s t := by
  rw [finish_eq_next] at h
  exact h ▸ unchangedExcept_trans hu (unchangedExcept_applyPcAction u a)

/-- A flag after another write adds the registers to what is written. -/
theorem unchangedExcept_writeFlag {ps : List Part} {s u : State} (f : Byte) (hu : unchangedExcept ps s u) :
    unchangedExcept (.v :: ps) s (writeFlag u f) :=
  unchangedExcept_trans hu (unchangedExcept_setReg u vf f)

/-- No instruction writes a part that the access table does not give it (10_state R38). -/
theorem unchangedExcept_of_exec {i : Instr} {s t : State} (h : exec i s = .next t) :
    unchangedExcept (writtenBy i) s t := by
  cases i with
  | jp | seImm | sneImm | seReg | sneReg | jpV0 => exact unchangedExcept_of_finish h (unchangedExcept_refl [] s)
  | call nnn =>
    obtain ⟨hlt, rfl⟩ | ⟨-, rfl⟩ := exec_call_cases h
    · exact unchangedExcept_mono (unchangedExcept_of_finish rfl (unchangedExcept_pushed s _ hlt)) (by simp [writtenBy])
    · exact unchangedExcept_mono (unchangedExcept_fault s _) (by simp [writtenBy])
  | ret =>
    obtain ⟨hpos, rfl⟩ | ⟨-, rfl⟩ := exec_ret_cases h
    · exact unchangedExcept_mono (unchangedExcept_of_finish rfl (unchangedExcept_popped s hpos)) (by simp [writtenBy])
    · exact unchangedExcept_mono (unchangedExcept_fault s _) (by simp [writtenBy])
  | ldImm | addImm | ldReg | orReg | andReg | xorReg | ldVxDt =>
    exact unchangedExcept_of_finish h (unchangedExcept_setReg s _ _)
  | addReg | subReg | shr | subnReg | shl =>
    exact unchangedExcept_mono
      (unchangedExcept_of_finish h (unchangedExcept_writeFlag _ (unchangedExcept_setReg s _ _))) (by simp [writtenBy])
  | rnd =>
    exact unchangedExcept_of_finish h
      (unchangedExcept_trans (unchangedExcept_countDraw s) (unchangedExcept_setReg (countDraw s) _ _))
  | cls => exact unchangedExcept_of_finish h (unchangedExcept_setFb s _)
  | drw => exact unchangedExcept_of_finish h (unchangedExcept_writeFlag _ (unchangedExcept_setFb s _))
  | skp | sknp => exact unchangedExcept_of_finish h (unchangedExcept_isDown s _)
  | ldDtVx => exact unchangedExcept_of_finish h (unchangedExcept_setDelay s _)
  | ldStVx => exact unchangedExcept_of_finish h (unchangedExcept_setSound s _)
  | ldVxK => exact unchangedExcept_of_finish h (unchangedExcept_beginWait s _)
  | ldI | ldF => exact unchangedExcept_of_finish h (unchangedExcept_setIndex s _)
  | addI =>
    exact unchangedExcept_mono
      (unchangedExcept_of_finish h (unchangedExcept_writeFlag _ (unchangedExcept_setIndex s _))) (by simp [writtenBy])
  | ldB x => exact unchangedExcept_of_finish h (unchangedExcept_storeBcd s x)
  | stRegs => exact unchangedExcept_of_finish h (unchangedExcept_storeRegs s _)
  | ldRegs => exact unchangedExcept_of_finish h (unchangedExcept_loadRegs s _)

/-! ### Who writes a given part -/

theorem cyc_notMem_writtenBy (i : Instr) : Part.cyc ∉ writtenBy i := by
  cases i <;> simp [writtenBy]

theorem waiting_mem_writtenBy_iff (i : Instr) : Part.waiting ∈ writtenBy i ↔ ∃ x, i = .ldVxK x := by
  cases i <;> simp [writtenBy]

theorem fault_mem_writtenBy_iff (i : Instr) : Part.fault ∈ writtenBy i ↔ i = .ret ∨ ∃ nnn, i = .call nnn := by
  cases i <;> simp [writtenBy]

/-- An instruction takes a fatal fault only as a call on a full stack or a return on an empty one (60_exceptions R255). -/
theorem exec_fault_cases {i : Instr} {s t : State} {k : Fault} (hs : s.fault = none) (h : exec i s = .next t)
    (hk : t.fault = some k) :
    (((∃ nnn, i = .call nnn) ∧ s.sp.val = 16 ∧ k = .stackOverflow) ∨
      (i = .ret ∧ s.sp.val = 0 ∧ k = .stackUnderflow)) ∧
    t = { s with fault := some k } := by
  have hwrites : Part.fault ∈ writtenBy i := by
    by_contra hnot
    have hkept : t.fault = s.fault := unchangedExcept_of_exec h .fault hnot
    rw [hkept, hs] at hk
    cases hk
  obtain rfl | ⟨nnn, rfl⟩ := (fault_mem_writtenBy_iff i).mp hwrites
  case inl =>
    obtain ⟨_, rfl⟩ | ⟨hempty, rfl⟩ := exec_ret_cases h
    · exact absurd (hs.symm.trans hk) nofun
    · cases hk
      exact ⟨.inr ⟨rfl, hempty, rfl⟩, rfl⟩
  case inr =>
    obtain ⟨_, rfl⟩ | ⟨hfull, rfl⟩ := exec_call_cases h
    · exact absurd (hs.symm.trans hk) nofun
    · cases hk
      exact ⟨.inl ⟨⟨nnn, rfl⟩, hfull, rfl⟩, rfl⟩

/-! ### Registers -/

theorem reg_of_finish {s u t : State} {a : PcAction} {r : Reg} (h : finish u a = .next t) (hu : reg u r = reg s r) :
    reg t r = reg s r := by
  rw [finish_eq_next] at h
  exact h ▸ hu

theorem reg_writeFlag_of_ne (s : State) {r : Reg} (f : Byte) (h : r ≠ vf) : reg (writeFlag s f) r = reg s r :=
  reg_setReg_of_ne s f h

/-- A register that is no destination and no flag is kept (10_state R21, R22). -/
theorem reg_of_exec {i : Instr} {s t : State} {r : Reg} (h : exec i s = .next t) (hd : ¬ namesDestination i r)
    (hf : ¬ (definesFlag i = true ∧ r = vf)) : reg t r = reg s r := by
  cases i with
  | ldImm | addImm | ldReg | orReg | andReg | xorReg | rnd | ldVxDt => exact reg_of_finish h (reg_setReg_of_ne _ _ hd)
  | addReg | subReg | shr | subnReg | shl =>
    exact reg_of_finish h ((reg_writeFlag_of_ne _ _ fun hr => hf ⟨rfl, hr⟩).trans (reg_setReg_of_ne _ _ hd))
  | addI | drw => exact reg_of_finish h (reg_writeFlag_of_ne _ _ fun hr => hf ⟨rfl, hr⟩)
  | ldRegs x =>
    refine reg_of_finish h ?_
    rw [reg_loadRegs s _ (by omega), if_neg fun hr => hd (Nat.lt_succ_iff.mp hr)]
  | _ => exact unchangedExcept_of_exec h .v (by simp [writtenBy]) r

/-! ### The obligations -/

/-- Settles O20: each instruction is a few writes, each with its frame, and a PC action. -/
theorem instructionsWriteOnlyTheirParts : Obligations.InstructionsWriteOnlyTheirParts := fun _ _ _ =>
  unchangedExcept_of_exec

/-- Settles O21: a write of a register is a write of the destination or of VF. -/
theorem registersChangeOnlyIfNamedOrFlag : Obligations.RegistersChangeOnlyIfNamedOrFlag := fun _ _ _ _ => reg_of_exec

/-- Settles O12: no other instruction writes FAULT, and those two write nothing else with it. -/
theorem fatalFaultsComeOnlyFromCallAndReturn : Obligations.FatalFaultsComeOnlyFromCallAndReturn := fun _ _ _ _ =>
  exec_fault_cases

/-- Settles O22: the numbers of the three actions, and the frame of each. -/
theorem pcActionsMovePc : Obligations.PcActionsMovePc := by
  refine fun s a c => ⟨BitVec.toNat_add .., rfl, ?skip, fun action => ⟨rfl, unchangedExcept_applyPcAction s action⟩⟩
  case skip => cases c <;> exact BitVec.toNat_add ..

end Sys2Proof.Machine
end

section
/-!
The cycle (40_cycle, 60_exceptions).  First the step by the control state it starts in and what it returns there, then the
invariant, the poll and the timer divider.
-/

namespace Sys2Proof.Machine

/-! ### The step of each control state, and its result -/

theorem step_of_faulted {s : State} {k : Fault} (hf : s.fault = some k) : step s = .next s := by
  simp [step, cycle, hf, faultedCycle]

theorem step_of_instr {s : State} {i : Instr} (hf : s.fault = none) (hw : s.waiting = false)
    (hd : decode (fetch s) = .instr i) : step s = exec i (timerTick s) := by
  rw [step_of_running hf hw, fetchAndRun, fetch_timerTick, hd]

theorem step_of_unknown {s : State} {w : Word} (hf : s.fault = none) (hw : s.waiting = false)
    (hd : decode (fetch s) = .unknownOpcode w) : step s = .next (applyPcAction (timerTick s) .next) := by
  rw [step_of_running hf hw, fetchAndRun, fetch_timerTick, hd]
  rfl

theorem cycleResult_of_faulted {s : State} {k : Fault} (hf : s.fault = some k) : cycleResult s = .fault k := by
  simp [cycleResult, hf]

theorem cycleResult_of_waiting {s : State} (hf : s.fault = none) (hw : s.waiting = true) : cycleResult s = .ok := by
  simp [cycleResult, hf, hw]

theorem cycleResult_of_unknown {s : State} {w : Word} (hf : s.fault = none) (hw : s.waiting = false)
    (hd : decode (fetch s) = .unknownOpcode w) : cycleResult s = .unknownOpcode s.pc w := by
  simp [cycleResult, hf, hw, hd]

/-- The cycle of an instruction returns what FAULT holds after it (40_cycle R121). -/
theorem cycleResult_of_instr {s t : State} {i : Instr} (hf : s.fault = none) (hw : s.waiting = false)
    (hd : decode (fetch s) = .instr i) (ht : exec i (timerTick s) = .next t) :
    cycleResult s = resultOfAnswer (.next t) := by
  simp [cycleResult, hf, hw, hd, ht]

theorem resultOfAnswer_next_eq_fault_iff (t : State) (k : Fault) :
    resultOfAnswer (.next t) = .fault k ↔ t.fault = some k := by
  cases hf : t.fault <;> simp [resultOfAnswer, hf]

theorem resultOfAnswer_next_ne_unknownOpcode (t : State) (pc w : Word) :
    resultOfAnswer (.next t) ≠ .unknownOpcode pc w := by
  cases hf : t.fault <;> simp [resultOfAnswer, hf]

/-! ### Control states -/

theorem controlState_faulted_iff (s : State) : controlState s = .faulted ↔ ∃ k, s.fault = some k := by
  cases hf : s.fault <;> cases hw : s.waiting <;> simp [controlState, hf, hw]

theorem controlState_waiting_iff (s : State) : controlState s = .waiting ↔ s.fault = none ∧ s.waiting = true := by
  cases hf : s.fault <;> cases hw : s.waiting <;> simp [controlState, hf, hw]

theorem controlState_running_iff (s : State) : controlState s = .running ↔ s.fault = none ∧ s.waiting = false := by
  cases hf : s.fault <;> cases hw : s.waiting <;> simp [controlState, hf, hw]

/-- Among the instructions only `Fx0A` makes a running machine wait (40_cycle R129). -/
theorem controlState_waiting_of_exec_iff {i : Instr} {s t : State} (hf : s.fault = none) (hw : s.waiting = false)
    (h : exec i s = .next t) : controlState t = .waiting ↔ ∃ x, i = .ldVxK x := by
  rw [controlState_waiting_iff]
  constructor
  · rintro ⟨-, hwait⟩
    rw [← waiting_mem_writtenBy_iff]
    by_contra hnot
    have hkept : t.waiting = s.waiting := unchangedExcept_of_exec h .waiting hnot
    rw [hkept, hw] at hwait
    cases hwait
  · rintro ⟨x, rfl⟩
    obtain rfl : t = applyPcAction (beginWait s x) .next := (finish_eq_next _ _ _).mp h
    exact ⟨hf, rfl⟩

/-! ### The poll -/

theorem waitPoll_of_none {s : State} (h : firstKeyDown s = none) : waitPoll s = s := by simp [waitPoll, h]

theorem waitPoll_of_some {s : State} {k : Nat} (h : firstKeyDown s = some k) :
    waitPoll s = endWait (setReg s s.waitDest (BitVec.ofNat 8 k)) := by simp [waitPoll, h]

theorem firstKeyDown_none_iff (s : State) : firstKeyDown s = none ↔ ¬ someKeyDown s := by
  simp [firstKeyDown_none, someKeyDown]

/-- The least key down is the one below which every key is up. -/
theorem firstKeyDown_of_least {s : State} {k : Fin 16} (hk : s.key[k.val] = true)
    (hless : ∀ j : Fin 16, j < k → s.key[j.val] = false) : firstKeyDown s = some k.val :=
  (firstKeyDown_some s k.val).mpr ⟨k.isLt, hk, fun j hj => hless ⟨j, by omega⟩ hj⟩

/-- The poll touches at most the registers and WAITING (40_cycle R122). -/
theorem unchangedExcept_waitPoll (s : State) : unchangedExcept [.v, .waiting] s (waitPoll s) := by
  obtain ⟨-, hpoll⟩ | ⟨k, -, hpoll⟩ := waitPoll_spec s
  · rw [hpoll]
    exact unchangedExcept_refl _ s
  · exact hpoll ▸ unchangedExcept_mono
      (unchangedExcept_trans (unchangedExcept_setReg s _ _) (unchangedExcept_endWait _)) (by simp)

/-- The poll ends the wait exactly when it finds a key. -/
theorem waitPoll_waiting {s : State} (hw : s.waiting = true) : (waitPoll s).waiting = true ↔ ¬ someKeyDown s := by
  rw [← firstKeyDown_none_iff]
  cases hkey : firstKeyDown s with
  | none => simp [waitPoll_of_none hkey, hw]
  | some k => simp [waitPoll_of_some hkey]

/-! ### The invariant -/

theorem mem_wf_of_finish {u t : State} {a : PcAction} (h : finish u a = .next t) (hu : u.mem.wf = true) :
    t.mem.wf = true := by
  rw [finish_eq_next] at h
  exact h ▸ hu

/-- Every instruction keeps the canonical form: the three stores and the run of stores are writes in that form. -/
theorem mem_wf_of_exec {i : Instr} {s t : State} (h : exec i s = .next t) (hwf : s.mem.wf = true) : t.mem.wf = true := by
  cases i with
  | ldB => exact mem_wf_of_finish h (memWrite_wf _ _ (memWrite_wf _ _ (memWrite_wf _ _ hwf)))
  | stRegs => exact mem_wf_of_finish h (storeRegs_wf _ hwf)
  | ldRegs =>
    refine mem_wf_of_finish h ?_
    rwa [loadRegs_eq]
  | call => obtain ⟨_, rfl⟩ | ⟨-, rfl⟩ := exec_call_cases h <;> exact hwf
  | ret => obtain ⟨_, rfl⟩ | ⟨-, rfl⟩ := exec_ret_cases h <;> exact hwf
  | skp x | sknp x =>
    refine mem_wf_of_finish h ?_
    obtain ⟨_, hkey⟩ | ⟨-, hdraw⟩ := isDown_spec s (reg s x)
    · rwa [hkey]
    · rwa [hdraw]
  | _ => exact mem_wf_of_finish h hwf

theorem mem_wf_of_waitPoll {s : State} (hwf : s.mem.wf = true) : (waitPoll s).mem.wf = true := by
  obtain ⟨-, hpoll⟩ | ⟨k, -, hpoll⟩ := waitPoll_spec s <;> rwa [hpoll]

/-- The tick keeps the invariant. -/
theorem inv_timerTick {s : State} (h : s.Inv) : (timerTick s).Inv :=
  ⟨h.memWf, nextCyc_lt s, h.oneMode⟩

/-- The poll of an unfaulted machine keeps the invariant. -/
theorem inv_waitPoll {s : State} (hf : s.fault = none) (h : s.Inv) : (waitPoll s).Inv where
  memWf := mem_wf_of_waitPoll h.memWf
  cycBelow := (unchangedExcept_waitPoll s .cyc (by simp)).trans_lt h.cycBelow
  oneMode hfault := absurd ((unchangedExcept_waitPoll s .fault (by simp)).trans hf) hfault

/-- An instruction of a running machine keeps the invariant: a fault writes FAULT alone, so the machine is still not
waiting. -/
theorem inv_exec {i : Instr} {s t : State} (hf : s.fault = none) (hw : s.waiting = false) (h : s.Inv)
    (ht : exec i s = .next t) : t.Inv where
  memWf := mem_wf_of_exec ht h.memWf
  cycBelow := (unchangedExcept_of_exec ht .cyc (cyc_notMem_writtenBy i)).trans_lt h.cycBelow
  oneMode hfault := by
    obtain ⟨k, hk⟩ := Option.ne_none_iff_exists'.mp hfault
    obtain ⟨-, rfl⟩ := exec_fault_cases hf ht hk
    exact hw

theorem inv_applyPcAction {s : State} (a : PcAction) (h : s.Inv) : (applyPcAction s a).Inv :=
  ⟨h.memWf, h.cycBelow, h.oneMode⟩

/-! ### The timer divider -/

/-- CYC counts the ticks from 0 as long as they are fewer than CLOCK_HZ (60_exceptions R251). -/
theorem cyc_iterate_tick {hz : Nat} {s : State} (hs : s.cyc = 0) {n : Nat} (hn : n < hz) :
    ((timerTickWith hz)^[n] s).cyc = n := by
  induction n with
  | zero => exact hs
  | succ n ih =>
    rw [Function.iterate_succ_apply', timerTickWith_cyc, nextCyc, ih (by omega), Nat.mod_eq_of_lt hn]

/-- Tick n + 1 from CYC = 0 counts the timers down exactly when n + 1 is a multiple of the divider. -/
theorem tickFires_iterate {hz : Nat} {s : State} (hs : s.cyc = 0) {n : Nat} (hn : n + 1 < hz) :
    tickFires hz ((timerTickWith hz)^[n] s) = decide ((n + 1) % (hz / 60) = 0) := by
  rw [tickFires, nextCyc, cyc_iterate_tick hs (by omega), Nat.mod_eq_of_lt hn, timerDivider]

/-- No tick before the N-th counts down. -/
theorem timers_iterate_tick {hz : Nat} {s : State} (hs : s.cyc = 0) {n : Nat} (hn : n < hz / 60) :
    ((timerTickWith hz)^[n] s).dt = s.dt ∧ ((timerTickWith hz)^[n] s).st = s.st := by
  induction n with
  | zero => exact ⟨rfl, rfl⟩
  | succ n ih =>
    have hquiet : tickFires hz ((timerTickWith hz)^[n] s) = false := by
      rw [tickFires_iterate hs (by omega), Nat.mod_eq_of_lt hn]
      simp
    simpa [Function.iterate_succ_apply', hquiet] using ih (by omega)

/-! ### The obligations -/

/-- Settles O7: by the control state, and every instruction answers a next state. -/
theorem everyStepAnswersANextState : Obligations.EveryStepAnswersANextState := by
  intro s
  cases hf : s.fault with
  | some k => exact ⟨s, step_of_faulted hf⟩
  | none =>
    cases hw : s.waiting with
    | true => exact ⟨_, step_of_waiting hf hw⟩
    | false =>
      cases hd : decode (fetch s) with
      | instr i => exact step_of_instr hf hw hd ▸ exec_total i (timerTick s)
      | unknownOpcode w => exact ⟨_, step_of_unknown hf hw hd⟩

/-- Settles O8: the tick, the poll, every instruction and the skip of an unknown word keep the invariant. -/
theorem everyStepKeepsTheInvariant : Obligations.EveryStepKeepsTheInvariant := by
  intro s t hinv h
  have htick := inv_timerTick hinv
  obtain ⟨-, rfl⟩ | ⟨hf, -, rfl⟩ | ⟨hf, hw, i, -, hexec⟩ | ⟨-, -, -, rfl⟩ := step_cases h
  · exact hinv
  · exact inv_waitPoll (s := timerTick s) hf htick
  · exact inv_exec (s := timerTick s) hf hw htick hexec
  · exact inv_applyPcAction .next htick

/-- Settles O6: the fetched word is decoded, and the tick has a frame. -/
theorem stepRunsTheDecodedInstruction : Obligations.StepRunsTheDecodedInstruction := fun s _ hf hw hd =>
  ⟨step_of_instr hf hw hd, unchangedExcept_timerTick s⟩

/-- Settles O11: FAULT is tested first, by the step and by the result. -/
theorem faultedMachineChangesNothing : Obligations.FaultedMachineChangesNothing := fun _ _ hf =>
  ⟨step_of_faulted hf, cycleResult_of_faulted hf⟩

/-- Settles O14: the step is the action Next after the tick, and the word reported is the one fetched. -/
theorem unknownWordIsReportedAndSkipped : Obligations.UnknownWordIsReportedAndSkipped := by
  intro s w hf hw hd
  obtain rfl := unknownOpcode_word hd
  exact ⟨cycleResult_of_unknown hf hw hd, _, step_of_unknown hf hw hd, rfl, unchangedExcept_applyPcAction _ _⟩

/-- Settles O13: the poll after the tick, which finds the least key down if there is one. -/
theorem waitingCycleTakesTheLeastKeyDown : Obligations.WaitingCycleTakesTheLeastKeyDown := by
  intro s hf hw
  refine ⟨cycleResult_of_waiting hf hw, fun hnone => ?none, fun k hk hless => ?some⟩
  case none =>
    have hkey : firstKeyDown (timerTick s) = none := (firstKeyDown_none_iff s).mpr hnone
    rw [step_of_waiting hf hw, waitPoll_of_none hkey]
  case some =>
    have hkey : firstKeyDown (timerTick s) = some k.val := firstKeyDown_of_least (s := s) hk hless
    refine ⟨_, step_of_waiting hf hw, fun r => ?_, ?_, ?_, unchangedExcept_waitPoll _⟩
    all_goals rw [waitPoll_of_some hkey]
    · exact reg_setReg (timerTick s) _ _ r
    · rfl
    · rfl

/-- Settles O15: the condition of the decrement stands in the fields. -/
theorem timerTickFollowsTheDivider : Obligations.TimerTickFollowsTheDivider := by
  refine ⟨fun hz s => ?tick, fun _ => rfl, clockHz_ge, max_eq_left⟩
  case tick =>
    by_cases hfires : (s.cyc + 1) % hz % (hz / 60) = 0
    · simp [timerTickWith, tickFires, nextCyc, timerDivider, hfires, decrementTimers]
    · simp [timerTickWith, tickFires, nextCyc, timerDivider, hfires]

/-- Settles O17: the first N - 1 ticks are quiet, and the N-th fires. -/
theorem firstDecrementIsAtTheNthTick : Obligations.FirstDecrementIsAtTheNthTick := by
  intro hz s hhz hs
  obtain ⟨m, hm⟩ : ∃ m, hz / 60 = m + 1 := ⟨hz / 60 - 1, by omega⟩
  obtain ⟨hdt, hst⟩ := timers_iterate_tick hs (hz := hz) (n := m) (by omega)
  have hfires : tickFires hz ((timerTickWith hz)^[m] s) = true := by
    rw [tickFires_iterate hs (by omega), hm, Nat.mod_self]
    rfl
  refine ⟨fun n hn => timers_iterate_tick hs hn, ?_⟩
  rw [hm, Function.iterate_succ_apply']
  simp [hfires, hdt, hst]

/-- Settles O18: by what the step did, each with its own result. -/
theorem cycleResultReportsTheCycle : Obligations.CycleResultReportsTheCycle := by
  intro s t h
  obtain ⟨hf, rfl⟩ | ⟨hf, hw, rfl⟩ | ⟨hf, hw, i, hd, hexec⟩ | ⟨hf, hw, ⟨w, hd⟩, rfl⟩ := step_cases h
  case inl =>
    obtain ⟨k, hk⟩ := Option.ne_none_iff_exists'.mp hf
    simp [cycleResult_of_faulted hk, hk]
  case inr.inl =>
    have hkept : (waitPoll (timerTick s)).fault = none := (unchangedExcept_waitPoll _ .fault (by simp)).trans hf
    simp [cycleResult_of_waiting hf hw, hkept, hw]
  case inr.inr.inl =>
    rw [cycleResult_of_instr hf hw hd hexec]
    simp [resultOfAnswer_next_eq_fault_iff, resultOfAnswer_next_ne_unknownOpcode, hd]
  case inr.inr.inr =>
    obtain rfl := unknownOpcode_word hd
    simp [cycleResult_of_unknown hf hw hd, hf, hw, hd, eq_comm]

/-- Settles O19: only `Fx0A` writes WAITING, FAULT is what the result reports, and the poll ends the wait when it finds a
key. -/
theorem controlStatesFollowTheTable : Obligations.ControlStatesFollowTheTable := by
  refine ⟨fun s t h => ⟨fun hrun => ⟨?wait, ?fault⟩, fun hwait => ?poll, fun hfault => ?stay⟩, fun s => rfl⟩
  case wait =>
    obtain ⟨hf, hw⟩ := (controlState_running_iff s).mp hrun
    cases hd : decode (fetch s) with
    | instr i =>
      rw [step_of_instr hf hw hd] at h
      simpa using controlState_waiting_of_exec_iff (s := timerTick s) hf hw h
    | unknownOpcode w =>
      rw [step_of_unknown hf hw hd] at h
      cases h
      simp [controlState_waiting_iff, hw]
  case fault =>
    rw [controlState_faulted_iff]
    exact exists_congr fun k => ((cycleResultReportsTheCycle s t h).1 k).symm
  case poll =>
    obtain ⟨hf, hw⟩ := (controlState_waiting_iff s).mp hwait
    rw [step_of_waiting hf hw] at h
    cases h
    have hkept : (waitPoll (timerTick s)).fault = none := (unchangedExcept_waitPoll _ .fault (by simp)).trans hf
    have hends : (waitPoll (timerTick s)).waiting = true ↔ ¬ someKeyDown s := waitPoll_waiting (s := timerTick s) hw
    rw [controlState_running_iff, controlState_waiting_iff, ← Bool.not_eq_true, hends]
    simp [hkept]
  case stay =>
    obtain ⟨k, hk⟩ := (controlState_faulted_iff s).mp hfault
    rw [step_of_faulted hk] at h
    cases h
    rfl

end Sys2Proof.Machine
end

section
/-!
Call, return and the stack (41_control, 10_state).  What the entries and SP are after a push and a pop; the obligations put
these together with the two ways of a call and of a return.
-/

namespace Sys2Proof.Machine

/-! ### Entries after a push and a pop -/

theorem pushed_sp (s : State) (a : Word) (h : s.sp.val < 16) : (pushed s a h).sp.val = s.sp.val + 1 := rfl

theorem popped_sp (s : State) (h : 0 < s.sp.val) : (popped s h).sp.val = s.sp.val - 1 := rfl

theorem pushed_entry (s : State) (a : Word) (h : s.sp.val < 16) : (pushed s a h).stack[s.sp.val] = a := by
  simp [pushed]

theorem pushed_other (s : State) (a : Word) (h : s.sp.val < 16) {k : Fin 16} (hk : k.val ≠ s.sp.val) :
    (pushed s a h).stack[k.val] = s.stack[k.val] := by
  simp [pushed, hk.symm]

/-- What a push put on top is what is on top (10_state R28, R29). -/
theorem topEntry_pushed (s : State) (a : Word) (h : s.sp.val < 16) : topEntry (pushed s a h) (Nat.succ_pos _) = a :=
  pushed_entry s a h

/-- Below the pushed entry the stack is as it was. -/
theorem topEntry_popped_pushed (s : State) (a : Word) (h : s.sp.val < 16) (hpos : 0 < s.sp.val) :
    topEntry (popped (pushed s a h) (Nat.succ_pos _)) hpos = topEntry s hpos :=
  pushed_other s a h (k := ⟨s.sp.val - 1, by omega⟩) (by simp; omega)

theorem pop_of_topEntry {s : State} {a : Word} (h : 0 < s.sp.val) (ha : topEntry s h = a) :
    pop s = .ok (a, popped s h) :=
  ha ▸ pop_of_pos h

/-! ### The obligations -/

/-- Settles O24: a call with room is a push of the next address and a jump. -/
theorem callPushesTheReturnAddress : Obligations.CallPushesTheReturnAddress := by
  refine fun s nnn => ⟨decode_encode (.call nnn), fun h => ?room, exec_call_of_full nnn⟩
  case room =>
    have hframe := unchangedExcept_pushed s (s.pc + 2) h
    refine ⟨_, exec_call_of_lt nnn h, pushed_sp s (s.pc + 2) h, ?entry, fun k => pushed_other s (s.pc + 2) h,
      toNat_addrOperand nnn, unchangedExcept_trans hframe (unchangedExcept_applyPcAction _ _)⟩
    case entry =>
      rw [applyPcAction_stack, pushed_entry, BitVec.toNat_add]
      rfl

/-- Settles O25: a return from a stack that is not empty is a pop and a jump to what it pops. -/
theorem returnPopsTheReturnAddress : Obligations.ReturnPopsTheReturnAddress := fun s =>
  ⟨decode_encode .ret,
    fun h => ⟨_, exec_ret_of_pos h, popped_sp s h, rfl,
      unchangedExcept_trans (unchangedExcept_popped s h) (unchangedExcept_applyPcAction _ _)⟩,
    exec_ret_of_empty⟩

/-- Settles O26: the return pops what the call pushed. -/
theorem returnUndoesCall : Obligations.ReturnUndoesCall := by
  intro s t nnn hlt h
  rw [exec_call_of_lt nnn hlt, finish_eq_next] at h
  subst h
  refine ⟨_, exec_ret_of_pos (s := applyPcAction (pushed s (s.pc + 2) hlt) _) (Nat.succ_pos _),
    topEntry_pushed s (s.pc + 2) hlt, ?frame⟩
  case frame =>
    intro p hp
    have hsame := Part.same_refl p s
    cases p with
    | pc | stack => exact absurd (by decide) hp
    | _ => exact hsame

/-- Settles O27: each pop gives what the push before it put there, and the lower entry is kept by the second push. -/
theorem stackRoundTrip : Obligations.StackRoundTrip := by
  intro s a b hsp
  have hlt : s.sp.val < 16 := by omega
  have hlt₁ : (pushed s a hlt).sp.val < 16 := by rw [pushed_sp]; omega
  have hpos₂ : 0 < (pushed (pushed s a hlt) b hlt₁).sp.val := Nat.succ_pos _
  have hpos₃ : 0 < (popped (pushed (pushed s a hlt) b hlt₁) hpos₂).sp.val := Nat.succ_pos _
  have hb := topEntry_pushed (pushed s a hlt) b hlt₁
  have ha := (topEntry_popped_pushed (pushed s a hlt) b hlt₁ (Nat.succ_pos _)).trans (topEntry_pushed s a hlt)
  refine ⟨pushed s a hlt, pushed (pushed s a hlt) b hlt₁, popped _ hpos₂, popped _ hpos₃, push_of_lt hlt a,
    push_of_lt hlt₁ b, pop_of_topEntry hpos₂ hb, pop_of_topEntry hpos₃ ha, rfl, ?frame⟩
  case frame =>
    intro p hp
    have hsame := Part.same_refl p s
    cases p with
    | stack => exact absurd List.mem_cons_self hp
    | _ => exact hsame

end Sys2Proof.Machine
end

section
/-!
What no instruction can learn (10_state).  ST, CYC and the entries of the stack are carried along by every instruction that
does not itself write ST or use the stack; calls and returns, which read and write entries below the top, are treated apart.
-/

namespace Sys2Proof.Machine

/-! ### Parts that the shared operations carry along -/

/-- The state with another CYC, another ST and other entries of the stack. -/
def withUnread (s : State) (c : Nat) (b : Byte) (k : Vector Word 16) : State := { s with cyc := c, st := b, stack := k }

theorem bytesAtIndex_withUnread (s : State) (c : Nat) (b : Byte) (k : Vector Word 16) (j n : Nat) :
    bytesAtIndex (withUnread s c b k) j n = bytesAtIndex s j n := by
  induction n generalizing j with
  | zero => rfl
  | succ n ih => exact congrArg _ (ih (j + 1))

theorem drawnSprite_withUnread (s : State) (c : Nat) (b : Byte) (k : Vector Word 16) (x y : Reg) (n : Nibble) :
    drawnSprite (withUnread s c b k) x y n = drawnSprite s x y n :=
  congrArg (blitSprite s.fb _ _) (bytesAtIndex_withUnread s c b k 0 n.toNat)

theorem storeRegs_withUnread (s : State) (c : Nat) (b : Byte) (k : Vector Word 16) (n : Nat) :
    storeRegs (withUnread s c b k) n = withUnread (storeRegs s n) c b k := by
  induction n with
  | zero => rfl
  | succ n ih =>
    simp only [storeRegs, ih]
    rfl

theorem loadRegs_withUnread (s : State) (c : Nat) (b : Byte) (k : Vector Word 16) (n : Nat) :
    loadRegs (withUnread s c b k) n = withUnread (loadRegs s n) c b k := by
  induction n with
  | zero => rfl
  | succ n ih =>
    simp only [loadRegs, ih]
    rfl

theorem isDown_withUnread (s : State) (c : Nat) (b : Byte) (k : Vector Word 16) (v : Byte) :
    isDown (withUnread s c b k) v = ((isDown s v).1, withUnread (isDown s v).2 c b k) := by
  unfold isDown
  split <;> rfl

/-- An instruction that neither writes ST nor uses the stack carries CYC, ST and the entries along. -/
theorem exec_withUnread {i : Instr} {s t : State} (hst : ∀ x, i ≠ .ldStVx x) (hcall : ∀ nnn, i ≠ .call nnn)
    (hret : i ≠ .ret) (h : exec i s = .next t) (c : Nat) (b : Byte) (k : Vector Word 16) :
    exec i (withUnread s c b k) = .next (withUnread t c b k) := by
  cases i with
  | ret => exact absurd rfl hret
  | call nnn => exact absurd rfl (hcall nnn)
  | ldStVx x => exact absurd rfl (hst x)
  | drw x y n =>
    obtain rfl := (finish_eq_next _ _ _).mp h
    show execDrw x y n _ = _
    rw [execDrw, drawnSprite_withUnread]
    rfl
  | stRegs x =>
    obtain rfl := (finish_eq_next _ _ _).mp h
    show execStRegs x _ = _
    rw [execStRegs, storeRegs_withUnread]
    rfl
  | ldRegs x =>
    obtain rfl := (finish_eq_next _ _ _).mp h
    show execLdRegs x _ = _
    rw [execLdRegs, loadRegs_withUnread]
    rfl
  | skp x =>
    obtain rfl := (finish_eq_next _ _ _).mp h
    exact congrArg (fun d : Bool × State => finish d.2 (.skip d.1)) (isDown_withUnread s c b k (reg s x))
  | sknp x =>
    obtain rfl := (finish_eq_next _ _ _).mp h
    exact congrArg (fun d : Bool × State => finish d.2 (.skip !d.1)) (isDown_withUnread s c b k (reg s x))
  | _ =>
    obtain rfl := (finish_eq_next _ _ _).mp h
    rfl

/-- What such an instruction leaves is what it found. -/
theorem eq_withUnread_of_exec {i : Instr} {s t : State} (hst : ∀ x, i ≠ .ldStVx x) (hcall : ∀ nnn, i ≠ .call nnn)
    (hret : i ≠ .ret) (h : exec i s = .next t) : t = withUnread t s.cyc s.st s.stack :=
  Host.Outcome.next.inj (h.symm.trans (exec_withUnread hst hcall hret h s.cyc s.st s.stack))

theorem stack_of_exec {i : Instr} {s t : State} (hst : ∀ x, i ≠ .ldStVx x) (hcall : ∀ nnn, i ≠ .call nnn)
    (hret : i ≠ .ret) (h : exec i s = .next t) : t.stack = s.stack := by
  rw [eq_withUnread_of_exec hst hcall hret h]
  rfl

/-! ### Another CYC and another ST -/

/-- The state with another CYC and another ST. -/
def withClock (s : State) (c : Nat) (b : Byte) : State := { s with cyc := c, st := b }

/-- Every instruction but `Fx18` carries CYC and ST along. -/
theorem exec_withClock {i : Instr} {s t : State} (hst : ∀ x, i ≠ .ldStVx x) (h : exec i s = .next t) (c : Nat)
    (b : Byte) : exec i (withClock s c b) = .next (withClock t c b) := by
  by_cases hcall : ∃ nnn, i = .call nnn
  · obtain ⟨nnn, rfl⟩ := hcall
    obtain ⟨hlt, rfl⟩ | ⟨hfull, rfl⟩ := exec_call_cases h
    · exact exec_call_of_lt (s := withClock s c b) nnn hlt
    · exact exec_call_of_full (s := withClock s c b) nnn hfull
  by_cases hret : i = .ret
  · subst hret
    obtain ⟨hpos, rfl⟩ | ⟨hempty, rfl⟩ := exec_ret_cases h
    · exact exec_ret_of_pos (s := withClock s c b) hpos
    · exact exec_ret_of_empty (s := withClock s c b) hempty
  have hstack := stack_of_exec hst (not_exists.mp hcall) hret h
  exact (exec_withUnread hst (not_exists.mp hcall) hret h c b s.stack).trans
    (congrArg (fun k => Host.Outcome.next (withUnread t c b k)) hstack.symm)

theorem st_mem_writtenBy_iff (i : Instr) : Part.st ∈ writtenBy i ↔ ∃ x, i = .ldStVx x := by
  cases i <;> simp [writtenBy]

/-! ### Other entries above the top -/

/-- The state with other entries of the stack. -/
def withStack (s : State) (k : Vector Word 16) : State := { s with stack := k }

/-- States that agree below the top differ in entries alone. -/
theorem eq_withStack_of_agreeBelowTop {s t : State} (h : agreeBelowTop s t) : t = withStack s t.stack := by
  obtain ⟨hsame, -⟩ := h
  rw [← hsame]
  rfl

theorem waitPoll_withStack (s : State) (k : Vector Word 16) : waitPoll (withStack s k) = withStack (waitPoll s) k := by
  have hkey : firstKeyDown (withStack s k) = firstKeyDown s := rfl
  unfold waitPoll
  rw [hkey]
  split <;> rfl

theorem sp_mem_writtenBy_iff (i : Instr) : Part.sp ∈ writtenBy i ↔ i = .ret ∨ ∃ nnn, i = .call nnn := by
  cases i <;> simp [writtenBy]

/-- What leaves SP and the entries as they were keeps the agreement. -/
theorem agreeBelowTop_of_kept {s t : State} {k : Vector Word 16} (hk : agreeBelowTop s (withStack s k))
    (hsp : t.sp = s.sp) (hstack : Part.stack.same s t) : agreeBelowTop t (withStack t k) :=
  ⟨rfl, fun j hj => (hk.2 j (hsp ▸ hj)).trans (hstack j).symm⟩

/-- A call writes the entry that comes to lie below the top. -/
theorem agreeBelowTop_pushed {s : State} {k : Vector Word 16} (hk : agreeBelowTop s (withStack s k)) (a : Word)
    (h : s.sp.val < 16) : agreeBelowTop (pushed s a h) (pushed (withStack s k) a h) := by
  refine ⟨rfl, fun j hj => ?_⟩
  by_cases htop : j.val = s.sp.val
  · simp [pushed, withStack, htop]
  · rw [pushed_other s a h htop, pushed_other (withStack s k) a h htop]
    exact hk.2 j (by rw [pushed_sp] at hj; omega)

/-- A return reads an entry below the top. -/
theorem topEntry_withStack {s : State} {k : Vector Word 16} (hk : agreeBelowTop s (withStack s k))
    (h : 0 < s.sp.val) : topEntry (withStack s k) h = topEntry s h :=
  hk.2 ⟨s.sp.val - 1, by omega⟩ (Nat.sub_one_lt_of_lt h)

/-- Every instruction keeps the agreement below the top. -/
theorem exec_agreeBelowTop {i : Instr} {s t : State} {k : Vector Word 16} (hk : agreeBelowTop s (withStack s k))
    (h : exec i s = .next t) : ∃ u, exec i (withStack s k) = .next u ∧ agreeBelowTop t u := by
  by_cases hcall : ∃ nnn, i = .call nnn
  · obtain ⟨nnn, rfl⟩ := hcall
    obtain ⟨hlt, rfl⟩ | ⟨hfull, rfl⟩ := exec_call_cases h
    · obtain ⟨-, hbelow⟩ := agreeBelowTop_pushed hk (s.pc + 2) hlt
      exact ⟨_, exec_call_of_lt (s := withStack s k) nnn hlt, rfl, hbelow⟩
    · exact ⟨_, exec_call_of_full (s := withStack s k) nnn hfull, rfl, hk.2⟩
  by_cases hret : i = .ret
  · subst hret
    obtain ⟨hpos, rfl⟩ | ⟨hempty, rfl⟩ := exec_ret_cases h
    · refine ⟨_, exec_ret_of_pos (s := withStack s k) hpos, ?_⟩
      rw [topEntry_withStack hk hpos]
      exact ⟨rfl, fun j hj => hk.2 j (Nat.lt_of_lt_of_le hj (Nat.sub_le _ _))⟩
    · exact ⟨_, exec_ret_of_empty (s := withStack s k) hempty, rfl, hk.2⟩
  by_cases hst : ∃ x, i = .ldStVx x
  · obtain ⟨x, rfl⟩ := hst
    obtain rfl := (finish_eq_next _ _ _).mp h
    exact ⟨_, rfl, rfl, hk.2⟩
  have hkept := eq_withUnread_of_exec (not_exists.mp hst) (not_exists.mp hcall) hret h
  have hsp : t.sp = s.sp := unchangedExcept_of_exec h .sp (by simp [sp_mem_writtenBy_iff, hret, hcall])
  have hstack := stack_of_exec (not_exists.mp hst) (not_exists.mp hcall) hret h
  have hrun := exec_withUnread (not_exists.mp hst) (not_exists.mp hcall) hret h s.cyc s.st k
  exact ⟨withStack t k, hrun.trans (congrArg (fun u => Host.Outcome.next (withStack u k)) hkept.symm),
    agreeBelowTop_of_kept hk hsp fun j => congrArg (fun l => l[j.val]) hstack⟩

/-! ### The obligations -/

/-- Settles O56: every instruction carries CYC along, and ST too unless it is `Fx18`, which overwrites it. -/
theorem noInstructionReadsSoundTimerOrCycleCounter : Obligations.NoInstructionReadsSoundTimerOrCycleCounter := by
  refine fun i s t c b h => ⟨?cyc, fun hst => ?st, ?overwritten⟩
  case cyc =>
    by_cases hst : ∃ x, i = .ldStVx x
    · obtain ⟨x, rfl⟩ := hst
      obtain rfl := (finish_eq_next _ _ _).mp h
      rfl
    · have hkept : t.st = s.st := unchangedExcept_of_exec h .st (by rwa [st_mem_writtenBy_iff])
      exact (exec_withClock (not_exists.mp hst) h c s.st).trans
        (congrArg (fun b => Host.Outcome.next (withClock t c b)) hkept.symm)
  case st =>
    have hkept : t.cyc = s.cyc := unchangedExcept_of_exec h .cyc (cyc_notMem_writtenBy i)
    exact (exec_withClock hst h s.cyc b).trans (congrArg (fun c => Host.Outcome.next (withClock t c b)) hkept.symm)
  case overwritten =>
    rintro ⟨x, rfl⟩
    obtain rfl := (finish_eq_next _ _ _).mp h
    rfl

/-- Settles O57: the two states take the same kind of step, and only a return reads an entry, which lies below the top. -/
theorem entriesAboveTheTopAreNeverRead : Obligations.EntriesAboveTheTopAreNeverRead := by
  intro s₁ s₂ t₁ hagree h
  have hs₂ := eq_withStack_of_agreeBelowTop hagree
  generalize s₂.stack = k at hs₂
  subst hs₂
  have htick : agreeBelowTop (timerTick s₁) (withStack (timerTick s₁) k) := ⟨rfl, hagree.2⟩
  obtain ⟨hf, rfl⟩ | ⟨hf, hw, rfl⟩ | ⟨hf, hw, i, hd, hexec⟩ | ⟨hf, hw, ⟨w, hd⟩, rfl⟩ := step_cases h
  · obtain ⟨f, hf⟩ := Option.ne_none_iff_exists'.mp hf
    exact ⟨_, step_of_faulted (s := withStack t₁ k) hf, hagree⟩
  · have hpoll := unchangedExcept_waitPoll (timerTick s₁)
    refine ⟨_, step_of_waiting (s := withStack s₁ k) hf hw, ?_⟩
    exact waitPoll_withStack (timerTick s₁) k ▸
      agreeBelowTop_of_kept htick (hpoll .sp (by simp)) (hpoll .stack (by simp))
  · rw [step_of_instr (s := withStack s₁ k) hf hw hd]
    exact exec_agreeBelowTop htick hexec
  · exact ⟨_, step_of_unknown (s := withStack s₁ k) hf hw hd, rfl, hagree.2⟩

end Sys2Proof.Machine
end

section
/-!
The remaining register and arithmetic instructions (42_alu) and `Fx1E` (43_index_memory): cases of the two shared ends of a
result, and a write of I with its flag.
-/

namespace Sys2Proof.Machine

/-- Settles O36: result and flag are the difference the other way round and whether it needs no borrow. -/
theorem reverseSubtractSetsNotBorrowLast : Obligations.ReverseSubtractSetsNotBorrowLast := by
  intro s x y
  obtain ⟨t, ht, hflag, hresult, hrest⟩ :=
    writeResultFlag_spec s x (reg s y - reg s x) (notBorrowFlag (reg s y) (reg s x))
  refine ⟨decode_encode (.subnReg x y), t, ht, hflag.trans (flagByte_decide _), fun hx => ?_, hrest⟩
  rw [hresult hx, toNat_sub_eq_emod]

/-- Settles O33: each is a result without a flag. -/
theorem logicOperationsLeaveVf : Obligations.LogicOperationsLeaveVf := fun s x y =>
  ⟨⟨decode_encode (.orReg x y), writeResult_spec s x _⟩, ⟨decode_encode (.andReg x y), writeResult_spec s x _⟩,
    ⟨decode_encode (.xorReg x y), writeResult_spec s x _⟩⟩

/-- Settles O38: the result is the drawn byte under the mask, after the draw has been counted. -/
theorem randomByteIsMasked : Obligations.RandomByteIsMasked := by
  intro s x nn
  obtain ⟨t, ht, hreg, hpc, hframe⟩ := writeResult_spec (countDraw s) x (Config.randomByte s.draws &&& nn)
  have hx : reg t x = Config.randomByte s.draws &&& nn := by rw [hreg, if_pos rfl]
  refine ⟨decode_encode (.rnd x nn), t, ht, hx, fun k hk => ?clear, fun hnn => ?full, fun r hr => ?others,
    hframe .draws (by simp), hpc, unchangedExcept_trans (unchangedExcept_countDraw s) hframe⟩
  case clear => rw [hx, BitVec.getLsbD_and, hk, Bool.and_false]
  case full =>
    rw [hx, hnn]
    exact BitVec.and_allOnes
  case others => rw [hreg, if_neg hr, reg_countDraw]

/-- Settles O40: I is the sum without its carry, and VF, written last, is the carry. -/
theorem addToIndexSetsCarryLast : Obligations.AddToIndexSetsCarryLast := by
  intro s x
  have hreg := reg_writeFlag (setIndex s (s.i + byteOperand (reg s x))) (indexCarryFlag s.i (reg s x))
  refine ⟨decode_encode (.addI x), _, rfl, ?sum, ?flag, fun r hr => (hreg r).trans (if_neg hr), rfl, ?frame⟩
  case sum => exact (BitVec.toNat_add ..).trans (by rw [toNat_byteOperand])
  case flag => exact (hreg vf).trans ((if_pos rfl).trans (flagByte_decide _))
  case frame => exact unchangedExcept_mono (unchangedExcept_of_exec (i := .addI x) rfl) (by simp [writtenBy])

end Sys2Proof.Machine
end

section
/-!
Runs of bytes in memory (43_index_memory, 20_memory): the registers that `Fx55` stores and `Fx65` loads, the fetch of what
was stored, the host's load, and the canonical form, in which a memory is what it reads.
-/

namespace Sys2Proof.Machine

/-! ### The run of stores -/

theorem reg_ofNat_val (s : State) (k : Reg) : reg s (Fin.ofNat 16 k.val) = reg s k := by
  congr
  simp

/-- Every register up to Vx is stored at its own address, since 16 < 4096 (43_index_memory R194). -/
theorem memRead_storeRegs_reg {s : State} (h : s.mem.wf = true) {k x : Reg} (hk : k ≤ x) :
    memRead (storeRegs s (x.val + 1)) (effectiveAddress s k.val) = reg s k :=
  (memRead_storeRegs h _ k.val (Nat.lt_succ_of_le hk) (by omega)).trans (reg_ofNat_val s k)

theorem memRead_congr (s : State) {a b : Nat} (h : a % 4096 = b % 4096) : memRead s a = memRead s b := by
  rw [← memRead_mod, h, memRead_mod]

/-! ### The run of the host's load -/

/-- A byte that no byte of the image goes to is kept (20_memory R67). -/
theorem memRead_loadBytes_other {s : State} (h : s.mem.wf = true) {bytes : List Byte} {a c : Nat}
    (hc : ∀ k < bytes.length, (a + k) % 4096 ≠ c % 4096) : memRead (loadBytes s a bytes) c = memRead s c := by
  induction bytes generalizing s a with
  | nil => rfl
  | cons b bytes ih =>
    have hhead : a % 4096 ≠ c % 4096 := hc 0 (Nat.succ_pos _)
    have htail : ∀ k < bytes.length, (a + 1 + k) % 4096 ≠ c % 4096 := fun k hk => by
      rw [Nat.add_right_comm]
      exact hc (k + 1) (Nat.succ_lt_succ hk)
    rw [loadBytes, ih (memWrite_wf a b h) htail, memRead_memWrite h, if_neg hhead]

/-- Each byte is at its address unless a later one goes there (20_memory R67, D27). -/
theorem memRead_loadBytes {s : State} (h : s.mem.wf = true) {bytes : List Byte} {a k : Nat} (hk : k < bytes.length)
    (hlast : ∀ j, k < j → j < bytes.length → (a + j) % 4096 ≠ (a + k) % 4096) :
    memRead (loadBytes s a bytes) (a + k) = bytes[k] := by
  induction bytes generalizing s a k with
  | nil => exact absurd hk (Nat.not_lt_zero k)
  | cons b bytes ih =>
    have hwf := memWrite_wf a b h
    cases k with
    | zero =>
      have htail : ∀ j < bytes.length, (a + 1 + j) % 4096 ≠ (a + 0) % 4096 := fun j hj => by
        rw [Nat.add_right_comm]
        exact hlast (j + 1) (Nat.succ_pos j) (Nat.succ_lt_succ hj)
      rw [loadBytes, memRead_loadBytes_other hwf htail, memRead_memWrite h]
      exact if_pos rfl
    | succ k =>
      have hshift : a + (k + 1) = a + 1 + k := by omega
      rw [loadBytes, hshift, ih hwf (Nat.lt_of_succ_lt_succ hk) fun j hkj hj => ?_]
      · rfl
      · have := hlast (j + 1) (Nat.succ_lt_succ hkj) (Nat.succ_lt_succ hj)
        rwa [hshift, show a + (j + 1) = a + 1 + j by omega] at this

theorem unchangedExcept_loadBytes (s : State) (a : Nat) (bytes : List Byte) :
    unchangedExcept [.mem] s (loadBytes s a bytes) := by
  rw [loadBytes_eq]
  intro p hp
  have hsame := Part.same_refl p s
  cases p with
  | mem => exact absurd List.mem_cons_self hp
  | _ => exact hsame

/-! ### A memory in canonical form is what it reads -/

theorem wfFrom_cons_iff {lo a : Nat} {b : Byte} {m : Memory} :
    Memory.wfFrom lo ((a, b) :: m) = true ↔ lo ≤ a ∧ a < 4096 ∧ b ≠ 0 ∧ Memory.wfFrom (a + 1) m = true := by
  simp [Memory.wfFrom, and_assoc]

theorem cellsRead_cons_self (a : Nat) (b : Byte) (m : Memory) : cellsRead ((a, b) :: m) a = b := by
  simp [cellsRead]

theorem cellsRead_cons_of_ne {a c : Nat} (h : a ≠ c) (b : Byte) (m : Memory) :
    cellsRead ((a, b) :: m) c = cellsRead m c := by
  simp [cellsRead, h]

/-- An address that does not read as 0 is not below the first listed one. -/
theorem head_le_of_cellsRead_ne_zero {lo a c : Nat} {b : Byte} {m : Memory}
    (h : Memory.wfFrom lo ((a, b) :: m) = true) (hc : cellsRead ((a, b) :: m) c ≠ 0) : a ≤ c := by
  obtain ⟨-, hcell⟩ := wfFrom_cons_iff.mp h
  by_contra hlt
  exact hc (cellsRead_of_lt (wfFrom_cons_iff.mpr ⟨le_rfl, hcell⟩) (by omega))

/-- The first listed address is the least that does not read as 0, so memories that read alike list it alike. -/
theorem eq_of_cellsRead_eq {m₁ m₂ : Memory} {lo : Nat} (h₁ : Memory.wfFrom lo m₁ = true)
    (h₂ : Memory.wfFrom lo m₂ = true) (hread : ∀ a, cellsRead m₁ a = cellsRead m₂ a) : m₁ = m₂ := by
  induction m₁ generalizing m₂ lo with
  | nil =>
    cases m₂ with
    | nil => rfl
    | cons c m₂ =>
      obtain ⟨a, b⟩ := c
      obtain ⟨-, -, hb, -⟩ := wfFrom_cons_iff.mp h₂
      exact absurd (hread a).symm (by rwa [cellsRead_cons_self])
  | cons c₁ m₁ ih =>
    obtain ⟨a₁, b₁⟩ := c₁
    obtain ⟨-, -, hb₁, htail₁⟩ := wfFrom_cons_iff.mp h₁
    have hhead₁ := hread a₁
    rw [cellsRead_cons_self] at hhead₁
    cases m₂ with
    | nil => exact absurd hhead₁ hb₁
    | cons c₂ m₂ =>
      obtain ⟨a₂, b₂⟩ := c₂
      obtain ⟨-, -, hb₂, htail₂⟩ := wfFrom_cons_iff.mp h₂
      have hhead₂ := hread a₂
      rw [cellsRead_cons_self] at hhead₂
      obtain rfl : a₁ = a₂ := le_antisymm (head_le_of_cellsRead_ne_zero h₁ (hhead₂ ▸ hb₂))
        (head_le_of_cellsRead_ne_zero h₂ (hhead₁ ▸ hb₁))
      rw [cellsRead_cons_self] at hhead₁
      rw [hhead₁, ih htail₁ htail₂ fun c => ?tail]
      case tail =>
        by_cases hc : a₁ = c
        · rw [← hc, cellsRead_of_lt htail₁ (Nat.lt_succ_self _), cellsRead_of_lt htail₂ (Nat.lt_succ_self _)]
        · rw [← cellsRead_cons_of_ne hc b₁, hread, cellsRead_cons_of_ne hc]

/-! ### The obligations -/

/-- Settles O45: by the heads of the two lists. -/
theorem memoriesThatReadAlikeAreEqual : Obligations.MemoriesThatReadAlikeAreEqual := fun _ _ => eq_of_cellsRead_eq

/-- Settles O42: the run of stores, then the PC action. -/
theorem storeRegistersWritesTheRange : Obligations.StoreRegistersWritesTheRange := by
  intro s x
  refine ⟨decode_encode (.stRegs x), _, rfl, fun hwf => ⟨fun k hk => memRead_storeRegs_reg hwf hk, fun a ha => ?other⟩,
    ?pc, unchangedExcept_of_exec (i := .stRegs x) rfl⟩
  case pc => exact congrArg (· + 2) (unchangedExcept_storeRegs s (x.val + 1) .pc (by simp))
  case other =>
    exact memRead_storeRegs_other hwf (x.val + 1) a fun k hk => ha ⟨k, by omega⟩ (Nat.le_of_lt_succ hk)

/-- Settles O43: the run of loads, then the PC action. -/
theorem loadRegistersReadsTheRange : Obligations.LoadRegistersReadsTheRange := by
  intro s x
  refine ⟨decode_encode (.ldRegs x), _, rfl, fun r => ?range, ?pc, unchangedExcept_of_exec (i := .ldRegs x) rfl⟩
  case pc => exact congrArg (· + 2) (unchangedExcept_loadRegs s (x.val + 1) .pc (by simp))
  case range =>
    simp only [reg_applyPcAction, reg_loadRegs s (x.val + 1) (by omega), Nat.lt_succ_iff, Fin.le_def]

/-- Settles O44: the fetch reads memory, and memory holds what was stored. -/
theorem storedBytesAreFetched : Obligations.StoredBytesAreFetched := by
  intro s t x k hwf h hk
  obtain rfl := (finish_eq_next _ _ _).mp h
  have hstored := memRead_storeRegs_reg hwf hk
  rw [fetch, highByte_wordOfBytes, lowByte_wordOfBytes]
  exact ⟨fun hpc => (memRead_congr _ hpc).trans hstored, fun hpc => (memRead_congr _ hpc).trans hstored⟩

/-- Settles O54: the host's load is the run of its writes. -/
theorem hostLoadCopiesBytes : Obligations.HostLoadCopiesBytes := fun s base bytes =>
  ⟨unchangedExcept_loadBytes s base.toNat bytes, fun hwf =>
    ⟨fun _ hk hlast => memRead_loadBytes hwf hk hlast, fun _ ha => memRead_loadBytes_other hwf ha⟩⟩

end Sys2Proof.Machine
end

section
/-!
Reset and the host's operations (70_reset_and_hazards, 10_state).
-/

namespace Sys2Proof.Machine

/-- An image that does not come round to the entry point leaves its first two bytes there (20_memory R67). -/
theorem fetch_hostLoad_hostReset (s : State) (b₀ b₁ : Byte) {rest : List Byte} (hlen : rest.length ≤ 4094) :
    fetch (hostLoad (hostReset s) 0x200 (b₀ :: b₁ :: rest)) = wordOfBytes b₀ b₁ := by
  have hpc : (hostLoad (hostReset s) 0x200 (b₀ :: b₁ :: rest)).pc = 0x200 :=
    unchangedExcept_loadBytes (hostReset s) _ _ .pc (by simp)
  have hload : ∀ k (hk : k < (b₀ :: b₁ :: rest).length), k < 2 →
      memRead (loadBytes (hostReset s) 512 (b₀ :: b₁ :: rest)) (512 + k) = (b₀ :: b₁ :: rest)[k] := by
    refine fun k hk hk2 => memRead_loadBytes (s := hostReset s) rfl hk fun j hkj hj => ?_
    simp only [List.length_cons] at hj
    omega
  rw [fetch, hpc]
  exact congrArg₂ wordOfBytes (hload 0 (by simp) (by decide)) (hload 1 (by simp) (by decide))

/-! ### The obligations -/

/-- Settles O9: nothing is listed, CYC is 0 and no fault is set. -/
theorem resetMeetsTheInvariant : Obligations.ResetMeetsTheInvariant where
  memWf := rfl
  cycBelow := Nat.lt_of_lt_of_le (by decide) clockHz_ge
  oneMode := absurd rfl

/-- Settles O10: reset starts anew, the load writes in canonical form, and a key is no part of the invariant. -/
theorem hostOperationsKeepTheInvariant : Obligations.HostOperationsKeepTheInvariant := by
  refine fun s hinv => ⟨⟨rfl, resetMeetsTheInvariant.cycBelow, absurd rfl⟩, fun base bytes => ?load, fun k down =>
    ⟨hinv.memWf, hinv.cycBelow, hinv.oneMode⟩⟩
  case load =>
    have hframe := unchangedExcept_loadBytes s base.toNat bytes
    refine ⟨loadBytes_wf _ _ hinv.memWf, ?_, ?_⟩
    · exact (hframe .cyc (by simp)).trans_lt hinv.cycBelow
    · rw [hostLoad, hframe .fault (by simp), hframe .waiting (by simp)]
      exact hinv.oneMode

/-- Settles O52: the reset state with the draw counter put back. -/
theorem resetLeavesEveryElementAtItsValue : Obligations.ResetLeavesEveryElementAtItsValue := by
  refine fun s => ⟨fun r => Vector.getElem_replicate .., rfl, rfl, rfl, rfl, fun k => Vector.getElem_replicate .., rfl,
    memRead_reset, fbGet_fbClear, fun k => Vector.getElem_replicate .., rfl, rfl, rfl, rfl, rfl, ?frame⟩
  case frame =>
    intro p hp
    have hsame := Part.same_refl p State.reset
    cases p with
    | draws => exact absurd List.mem_cons_self hp
    | _ => exact hsame

/-- Settles O53: the load writes only memory, so the machine is as reset left it, and fetches what was loaded. -/
theorem firstCycleRunsTheWordAtTheEntryPoint : Obligations.FirstCycleRunsTheWordAtTheEntryPoint := by
  refine fun s => ⟨rfl, rfl, rfl, fun b₀ b₁ rest hlen => ⟨fetch_hostLoad_hostReset s b₀ b₁ hlen, fun i hd => ?runs⟩⟩
  case runs =>
    have hframe := unchangedExcept_loadBytes (hostReset s) (0x200 : Word).toNat (b₀ :: b₁ :: rest)
    refine step_of_instr (hframe .fault (by simp)) (hframe .waiting (by simp)) ?_
    rw [fetch_hostLoad_hostReset s b₀ b₁ hlen]
    exact hd

/-- Settles O55: one key is set in the vector of keys. -/
theorem hostSetKeyChangesOneKey : Obligations.HostSetKeyChangesOneKey := by
  refine fun s k down => ⟨fun j => ?key, ?frame⟩
  case key => simp only [hostSetKey_key, Vector.getElem_set, Fin.ext_iff, eq_comm]
  case frame =>
    intro p hp
    have hsame := Part.same_refl p s
    cases p with
    | key => exact absurd List.mem_cons_self hp
    | _ => exact hsame

end Sys2Proof.Machine
end

section
/-!
Drawing (44_display).  The blit pixel by pixel, as flips of the pixels its sprite covers; a framebuffer is its pixels.
-/

namespace Sys2Proof.Machine

/-! ### The blit of a sprite -/

theorem fbGet_blitSprite_of_covers {fb : Framebuffer} {x y : Nat} {rows : List Byte} (hlen : rows.length ≤ 32)
    {px py : Nat} (h : spriteCovers x y rows px py) : fbGet (blitSprite fb x y rows).1 px py = !fbGet fb px py := by
  simp [blitSprite, fbGet_blitRows _ _ _ _ hlen, h]

theorem fbGet_blitSprite_of_not_covers {fb : Framebuffer} {x y : Nat} {rows : List Byte} (hlen : rows.length ≤ 32)
    {px py : Nat} (h : ¬ spriteCovers x y rows px py) : fbGet (blitSprite fb x y rows).1 px py = fbGet fb px py := by
  simp [blitSprite, fbGet_blitRows _ _ _ _ hlen, h]

/-- The blit collides exactly when it covers a lit pixel (44_display R210). -/
theorem blitSprite_collides_iff {fb : Framebuffer} {x y : Nat} {rows : List Byte} (hlen : rows.length ≤ 32) :
    (blitSprite fb x y rows).2 = true ↔ ∃ px py, spriteCovers x y rows px py ∧ fbGet fb px py = true := by
  simp [blitSprite, blitRows_snd _ _ _ _ hlen]

theorem fb_eq_of_fbGet_eq {fb fb' : Framebuffer} (h : ∀ x y, fbGet fb x y = fbGet fb' x y) : fb = fb' := by
  refine Vector.ext fun x hx => Vector.ext fun y hy => ?_
  have hxy := h x y
  simpa only [fbGet, Nat.mod_eq_of_lt hx, Nat.mod_eq_of_lt hy] using hxy

/-- The second blit flips back what the first flipped (44_display R213). -/
theorem blitSprite_blitSprite {x y : Nat} {rows : List Byte} (hlen : rows.length ≤ 32) (fb : Framebuffer) :
    (blitSprite (blitSprite fb x y rows).1 x y rows).1 = fb := by
  refine fb_eq_of_fbGet_eq fun px py => ?_
  by_cases h : spriteCovers x y rows px py
  · rw [fbGet_blitSprite_of_covers hlen h, fbGet_blitSprite_of_covers hlen h, Bool.not_not]
  · rw [fbGet_blitSprite_of_not_covers hlen h, fbGet_blitSprite_of_not_covers hlen h]

/-- A pixel that the blit turned on is a covered one that was dark. -/
theorem turnedOn_iff {fb : Framebuffer} {x y : Nat} {rows : List Byte} (hlen : rows.length ≤ 32) (px py : Nat) :
    fbGet fb px py = false ∧ fbGet (blitSprite fb x y rows).1 px py = true ↔
      spriteCovers x y rows px py ∧ fbGet (blitSprite fb x y rows).1 px py = true := by
  by_cases h : spriteCovers x y rows px py
  · simp [fbGet_blitSprite_of_covers hlen h, h]
  · simp [fbGet_blitSprite_of_not_covers hlen h, h]

/-! ### The obligations -/

/-- Settles O47: the rows are the bytes at I, the pixels are those of the blit, and the flag is written last. -/
theorem drawFlipsTheCoveredPixels : Obligations.DrawFlipsTheCoveredPixels := by
  intro s x y n
  have hlen : (bytesAtIndex s 0 n.toNat).length ≤ 32 := by
    have hn := n.isLt
    rw [bytesAtIndex_length]
    omega
  have hreg := reg_writeFlag (setFb s (drawnSprite s x y n).1) (flagByte (drawnSprite s x y n).2)
  have hvf := (hreg vf).trans (if_pos rfl)
  refine ⟨decode_encode (.drw x y n), _, bytesAtIndex s 0 n.toNat, rfl, bytesAtIndex_length s 0 n.toNat, fun r hr => ?row,
    fun px py => ⟨fbGet_blitSprite_of_covers hlen, fbGet_blitSprite_of_not_covers hlen⟩, ?twoValued, ?collision,
    fun r hr => (hreg r).trans (if_neg hr), rfl, ?frame⟩
  case row =>
    have hget := bytesAtIndex_getElem? s 0 n.toNat r
    rw [if_pos (bytesAtIndex_length s 0 n.toNat ▸ hr), Nat.zero_add] at hget
    exact (List.getElem?_eq_some_iff.mp hget).2
  case twoValued =>
    rw [reg_applyPcAction, hvf]
    exact flagByte_cases _
  case collision =>
    rw [reg_applyPcAction, hvf, flagByte_eq_one]
    exact blitSprite_collides_iff hlen
  case frame => exact unchangedExcept_mono (unchangedExcept_of_exec (i := .drw x y n) rfl) (by simp [writtenBy])

/-- Settles O48: pixel by pixel, by whether the sprite covers it. -/
theorem drawingTwiceRestoresTheDisplay : Obligations.DrawingTwiceRestoresTheDisplay := by
  intro fb x y rows h15 first second
  have hlen : rows.length ≤ 32 := by omega
  have hback : second.1 = fb := blitSprite_blitSprite hlen fb
  refine ⟨hback, ?second, fun hdark => ⟨?first, fun px py hcov => ⟨?lit, ?cleared⟩⟩⟩
  case second =>
    rw [blitSprite_collides_iff hlen]
    exact exists_congr fun px => exists_congr fun py => (turnedOn_iff hlen px py).symm
  case first =>
    rw [← Bool.not_eq_true, blitSprite_collides_iff hlen]
    rintro ⟨px, py, hcov, hlit⟩
    rw [hdark px py hcov] at hlit
    cases hlit
  case lit => rw [fbGet_blitSprite_of_covers hlen hcov, hdark px py hcov, Bool.not_false]
  case cleared => rw [hback, hdark px py hcov]

end Sys2Proof.Machine
end

section
/-!
Keypad and timer instructions (45_timers_keypad): what the read of a key answers, and the transfers as single writes.
-/

namespace Sys2Proof.Machine

theorem isDown_of_lt {s : State} {v : Byte} (h : v.toNat < 16) : isDown s v = (s.key[v.toNat], s) := dif_pos h

theorem isDown_of_ge {s : State} {v : Byte} (h : 16 ≤ v.toNat) : isDown s v = (Config.keyDraw s.draws, countDraw s) :=
  dif_neg (Nat.not_lt.mpr h)

theorem exec_skp (x : Reg) (s : State) :
    exec (.skp x) s = finish (isDown s (reg s x)).2 (.skip (isDown s (reg s x)).1) := rfl

theorem exec_sknp (x : Reg) (s : State) :
    exec (.sknp x) s = finish (isDown s (reg s x)).2 (.skip !(isDown s (reg s x)).1) := rfl

/-! ### The obligations -/

/-- Settles O49: both are the PC action Skip on the one read of the key. -/
theorem keySkipsReadTheKey : Obligations.KeySkipsReadTheKey := by
  refine fun s x => ⟨decode_encode (.skp x), decode_encode (.sknp x), fun h => ?key, fun h => ⟨_, rfl, ?draw⟩⟩
  case key =>
    rw [exec_skp, exec_sknp, isDown_of_lt h]
    exact ⟨rfl, rfl⟩
  case draw =>
    rw [exec_skp, exec_sknp, isDown_of_ge h]
    exact ⟨rfl, rfl⟩

/-- Settles O50: each is one write and the action Next, and in a cycle it runs on the state after the tick. -/
theorem timerTransfersMoveBytes : Obligations.TimerTransfersMoveBytes := by
  refine fun s x => ⟨⟨decode_encode (.ldVxDt x), _, rfl, reg_setReg s x s.dt, rfl, ?vx⟩,
    ⟨decode_encode (.ldDtVx x), _, rfl, rfl, rfl, ?dt⟩, ⟨decode_encode (.ldStVx x), _, rfl, rfl, rfl, ?st⟩,
    fun hf hw => ⟨fun hd => ⟨_, step_of_instr hf hw hd, ?_⟩, fun hd => ⟨_, step_of_instr hf hw hd, rfl⟩,
      fun hd => ⟨_, step_of_instr hf hw hd, rfl⟩⟩⟩
  case vx => exact unchangedExcept_of_exec (i := .ldVxDt x) rfl
  case dt => exact unchangedExcept_of_exec (i := .ldDtVx x) rfl
  case st => exact unchangedExcept_of_exec (i := .ldStVx x) rfl
  exact reg_setReg_self (timerTick s) x (timerTick s).dt

/-- Settles O51: it begins the wait and takes the action Next. -/
theorem waitForKeySuspends : Obligations.WaitForKeySuspends := fun _ x =>
  ⟨decode_encode (.ldVxK x), _, rfl, rfl, rfl, rfl, unchangedExcept_of_exec (i := .ldVxK x) rfl⟩

end Sys2Proof.Machine
end
